-- ==== Sys2Proof/Word.lean ====
section
/-! DEFINITION. The word and the byte (spec/00_scope.md R7, spec/10_state.md R20, R33). -/

namespace Sys2Proof

/-- A Word: "16-bit unsigned integer; all arithmetic on it wraps modulo 2^16" (R7).
Registers, the program counter, the status word, memory cells, addresses and instructions are words. -/
abbrev Word := BitVec 16

/-- A byte of the input source or of the output sink (R33). -/
abbrev Byte := BitVec 8

end Sys2Proof
end

