-- ==== Sys2Proof/Config.lean ====
section
/-! DEFINITION. What the spec leaves OPEN as a parameter and the model leaves free (spec/00_scope.md R5).
The parameters to which the spec gives a value stand in Machine/Params.lean. -/

namespace Sys2Proof

/-- `HALT_MESSAGE`, the byte string the halt trap writes to the byte sink: an OPEN parameter
(R5, spec/44_system.md R138, spec/92_eei_decisions.md D14). It is a free value: nothing in the model
knows a byte of it or its length. DESIGN CHOICE, log entry 7. -/
opaque Config.haltMessage : List Byte

end Sys2Proof
end

