-- ==== Sys2Proof/Machine/Params.lean ====
section
/-! DEFINITION. The parameters of spec/00_scope.md R5 to which the spec gives a value. Where the
source is silent the value is the spec's decision (spec/92_eei_decisions.md), named at each. They
stand in this folder so that a later repair may mend one of them. -/

namespace Sys2Proof.Machine

/-- `MEM_WORDS`: "memory size is exactly 65,536 words and never resized" (R29). -/
def memWords : Nat := 65536

/-- `ORIGIN_MIN`, the lowest origin an object file may have in the data model (R5, spec/20_memory.md R52). -/
def originMin : Word := 0x3000#16

/-- `ORIGIN_MAX`, the highest such origin (R5, spec/20_memory.md R52). -/
def originMax : Word := 0xFDFF#16

/-- `STATUS_ADDR`, the input status register (D7). UNVERIFIED, log entry 9. -/
def statusAddr : Word := 0xFE00#16

/-- `DATA_ADDR`, the input data register (D7). UNVERIFIED, log entry 9. -/
def dataAddr : Word := 0xFE02#16

/-- What a successful poll writes to the status cell: READY, other bits 0 (R44, D8). UNVERIFIED, log entry 9. -/
def statusReady : Word := 0x8000#16

/-- What a poll that finds nothing writes to the status cell (R44, D8). UNVERIFIED, log entry 9. -/
def statusIdle : Word := 0x0000#16

/-- `PRIV_BIT` (R24, D5). UNVERIFIED, log entry 9. -/
def privBit : Nat := 15

/-- `TRAP_GETC` (R5, D11). UNVERIFIED, log entry 9. -/
def vecGetc : BitVec 8 := 0x20#8
/-- `TRAP_OUT` (R5, D11). -/
def vecOut : BitVec 8 := 0x21#8
/-- `TRAP_PUTS` (R5, D11). -/
def vecPuts : BitVec 8 := 0x22#8
/-- `TRAP_IN` (R5, D11). -/
def vecIn : BitVec 8 := 0x23#8
/-- `TRAP_PUTSP` (R5, D11). -/
def vecPutsp : BitVec 8 := 0x24#8
/-- `TRAP_HALT` (R5, D11). -/
def vecHalt : BitVec 8 := 0x25#8

/-- The six vectors the trap dispatcher recognises (R131). -/
def recognisedVectors : List (BitVec 8) := [vecGetc, vecOut, vecPuts, vecIn, vecPutsp, vecHalt]

/-- `RESET_PC` at `State.reset`: OPEN in the spec, conventional value (R5, R36). PRESUMED, log entry 2. -/
def resetPc : Word := 0x3000#16

/-- `RESET_PSR` at `State.reset`: OPEN in the spec, conventional value (R5, R36). PRESUMED, log entry 2. -/
def resetPsr : Word := 0x0002#16

/-- What each general register holds at `State.reset`; the spec gives none (R36, R37). PRESUMED, log entry 2. -/
def resetReg : Word := 0x0000#16

/-- What a memory word that is not listed reads as (R36 and R37 give no value). DESIGN CHOICE, log entry 3. -/
def unlistedWord : Word := 0x0000#16

/-- `HALT_MESSAGE` (R5, R138): the free value of Config. DESIGN CHOICE, log entry 7. -/
def haltMessage : List Byte := Config.haltMessage

/-- `IN_PROMPT` (R5, R136): empty by D13. UNVERIFIED, log entry 8. -/
def inPrompt : List Byte := []

/-- `IN_SETS_FLAGS` (R5, R136): false by D13. UNVERIFIED, log entry 8. -/
def inSetsFlags : Bool := false

end Sys2Proof.Machine
end

