-- ==== Sys2Proof/Syntax.lean ====
section
/-! DEFINITION. The registers' names and the instructions: one constructor of `Instr` per row of
spec/opcode_table.json (the six rows of the unrecognised-vector TRAP are one instruction,
spec/30_encoding.md R75, and one constructor). -/

namespace Sys2Proof

/-- The eight general registers (spec/10_state.md R20). -/
inductive Reg where
  | r0 | r1 | r2 | r3 | r4 | r5 | r6 | r7
  deriving DecidableEq, Repr

/-- A decoded instruction (spec/30_encoding.md R70 to R75). Operands are the fields of R73; the bits a
format ignores (R76) are not part of it. -/
inductive Instr where
  /-- BR, R100: condition bits n, z, p and PCoffset9. -/
  | br (n z p : Bool) (off : BitVec 9)
  /-- ADD, register form, R105. -/
  | addReg (dr sr1 sr2 : Reg)
  /-- ADD, immediate form, R106. -/
  | addImm (dr sr1 : Reg) (imm : BitVec 5)
  /-- LD, R116. -/
  | ld (dr : Reg) (off : BitVec 9)
  /-- ST, R117. -/
  | st (sr : Reg) (off : BitVec 9)
  /-- JSR, R127. -/
  | jsr (off : BitVec 11)
  /-- JSRR, R128. -/
  | jsrr (base : Reg)
  /-- AND, register form, R107. -/
  | andReg (dr sr1 sr2 : Reg)
  /-- AND, immediate form, R108. -/
  | andImm (dr sr1 : Reg) (imm : BitVec 5)
  /-- LDR, R120. -/
  | ldr (dr base : Reg) (off : BitVec 6)
  /-- STR, R121. -/
  | str (sr base : Reg) (off : BitVec 6)
  /-- RTI, R130. -/
  | rti
  /-- NOT, R109. -/
  | not (dr sr : Reg)
  /-- LDI, R118. -/
  | ldi (dr : Reg) (off : BitVec 9)
  /-- STI, R119. -/
  | sti (sr : Reg) (off : BitVec 9)
  /-- JMP, R125; RET is JMP with base r7, R126. -/
  | jmp (base : Reg)
  /-- The reserved opcode 1101, R140. -/
  | reserved
  /-- LEA, R122. -/
  | lea (dr : Reg) (off : BitVec 9)
  /-- TRAP 0x20, GETC, R132. -/
  | trapGetc
  /-- TRAP 0x21, OUT, R134. -/
  | trapOut
  /-- TRAP 0x22, PUTS, R135. -/
  | trapPuts
  /-- TRAP 0x23, IN, R136. -/
  | trapIn
  /-- TRAP 0x24, PUTSP, R137. -/
  | trapPutsp
  /-- TRAP 0x25, HALT, R138. -/
  | trapHalt
  /-- TRAP with any other vector, R139. -/
  | trapUnrecognised (vect : BitVec 8)
  deriving DecidableEq, Repr

end Sys2Proof
end

