-- ==== Sys2Proof/Machine/State.lean ====
section
/-! DEFINITION. The state of the machine (spec/10_state.md), why a step can stop, and the launch and
reset states (R36, spec/70_reset_and_hazards.md R175, R176). -/

namespace Sys2Proof.Machine

/-- The register file: 8 general-purpose words, all storage, none hardwired (R20, R21). -/
structure RegFile where
  r0 : Word
  r1 : Word
  r2 : Word
  r3 : Word
  r4 : Word
  r5 : Word
  r6 : Word
  r7 : Word
  deriving DecidableEq, Repr

/-- The memory, "ordered array of 65,536 Words, index = address" (R29): the cells that do not hold
`unlistedWord`, as (word address, word) pairs with strictly rising addresses (`Memory.wf`). The
addressable unit is the 16-bit word (spec/20_memory.md R41; DEDUCED, log entry 1). -/
structure Memory where
  cells : List (Nat × Word)
  deriving DecidableEq, Repr

/-- The run state (R31). -/
inductive RunState where
  | running
  | halted
  deriving DecidableEq, Repr

/-- The halt cause (R32, D20). -/
inductive HaltCause where
  | none
  | trapHalt
  | illegalOpcode
  | privilegeViolation
  deriving DecidableEq, Repr

/-- The two fatal conditions (spec/60_exceptions.md R150). -/
inductive FatalCondition where
  /-- R151: the reserved opcode was dispatched. -/
  | illegalOpcode
  /-- R152: an RTI was dispatched in user mode. -/
  | privilegeViolation
  deriving DecidableEq, Repr

/-- The whole state of the core and of its two environment parties (R20 to R35). -/
structure State where
  /-- General registers (R20). -/
  regs : RegFile
  /-- Program counter (R22). -/
  pc : Word
  /-- Status word: P, Z, N in bits 0, 1, 2, storage in bits 14:3, privilege in bit 15 (R24). -/
  psr : Word
  /-- Memory, with the two device registers among its cells (R29, R30). -/
  mem : Memory
  /-- Run state (R31). -/
  run : RunState
  /-- Halt cause (R32). -/
  haltCause : HaltCause
  /-- Input source, a first-in first-out queue of bytes, head first (R33). -/
  inQ : List Byte
  /-- Output sink, append-only (R33). -/
  outLog : List Byte
  deriving DecidableEq, Repr

/-- Why the machine has no next state. The hardware's own two fatal conditions are not here: they
halt the core, which is a next state (R155). -/
inductive Fault where
  /-- Raised by GETC and IN when no byte waits in the input queue: the step is held and has no end
  state until the host appends one (R133, R166, U11). Safe: nothing is claimed of a held step; the
  host appends to the state before the step, and the step then completes (log entry 5). -/
  | heldForInput
  /-- Raised by PUTS and PUTSP when the walk meets no terminator within the words it could read
  (R141, U10). Safe: the hardware's step has no result either. No state of the model reaches it,
  because a finite input queue runs dry at the status address (log entry 6). -/
  | walkNeverEnds
  deriving DecidableEq, Repr

/-- Why the model gives an instruction no meaning. -/
inductive Refusal where
  /-- Raised by an arm of `exec` whose instruction has no meaning yet. Safe: nothing is claimed of
  it. No arm raises it in this package. -/
  | notModelled (mnemonic : String)
  deriving DecidableEq, Repr

/-- What one instruction or one step answers. -/
abbrev Result := Host.Outcome State Fault Refusal

/-- A register file that holds `v` everywhere. -/
def RegFile.all (v : Word) : RegFile := ⟨v, v, v, v, v, v, v, v⟩

/-- The memory in which nothing is listed. -/
def Memory.empty : Memory := ⟨[]⟩

/-- A launch state: what R176 makes an argument is an argument, and the rest is as R36 says: RUNNING,
halt cause NONE, the output empty. "Each is an arbitrary 16-bit value fixed at launch" (R37). -/
def State.launch (pc psr : Word) (regs : RegFile) (mem : Memory) (inQ : List Byte) : State :=
  { regs := regs, pc := pc, psr := psr, mem := mem, run := .running, haltCause := .none,
    inQ := inQ, outLog := [] }

/-- The machine right after reset, the creation of an engine instance (R175), before any load. The
program counter, status word and registers are PRESUMED (log entry 2); memory lists nothing (DESIGN
CHOICE, log entry 3); the input is empty unless the host says otherwise (R36). -/
def State.reset : State :=
  State.launch resetPc resetPsr (RegFile.all resetReg) Memory.empty []

end Sys2Proof.Machine
end

