-- ==== Sys2Proof/Machine/Operands.lean ====
section
/-! DEFINITION. Operand forms: sign and zero extension (spec/00_scope.md R8), the parts of a word the
traps emit, registers, and the effective addresses (spec/42_load_store.md R115). -/

namespace Sys2Proof.Machine

/-- `sext_N(f)`: "if the field's high bit is set, OR in all bits above position n" (R8). -/
def sext {n : Nat} (f : BitVec n) : Word :=
  if f.msb then f.setWidth 16 ||| (0xFFFF#16 <<< n) else f.setWidth 16

/-- `zext_8(b)`: the word whose low 8 bits are `b` and whose other bits are 0 (R8). -/
def zext8 (b : Byte) : Word := b.setWidth 16

/-- `w[7:0]`. -/
def lowByte (w : Word) : Byte := w.extractLsb' 0 8

/-- `w[15:8]`. -/
def highByte (w : Word) : Byte := w.extractLsb' 8 8

/-- The word of a byte pair, `lo | (hi << 8)` (spec/70_reset_and_hazards.md R177). -/
def wordOfBytes (lo hi : Byte) : Word := lo.setWidth 16 ||| hi.setWidth 16 <<< 8

/-- `get(index)` of the register file (R20). -/
def RegFile.get (f : RegFile) : Reg → Word
  | .r0 => f.r0
  | .r1 => f.r1
  | .r2 => f.r2
  | .r3 => f.r3
  | .r4 => f.r4
  | .r5 => f.r5
  | .r6 => f.r6
  | .r7 => f.r7

/-- `set(index, Word)` of the register file: "a write replaces all 16 bits" (R20). -/
def RegFile.set (f : RegFile) (r : Reg) (v : Word) : RegFile :=
  match r with
  | .r0 => { f with r0 := v }
  | .r1 => { f with r1 := v }
  | .r2 => { f with r2 := v }
  | .r3 => { f with r3 := v }
  | .r4 => { f with r4 := v }
  | .r5 => { f with r5 := v }
  | .r6 => { f with r6 := v }
  | .r7 => { f with r7 := v }

/-- `x[i]` (R20). -/
def State.reg (s : State) (r : Reg) : Word := s.regs.get r

/-- `x[i] <- v` (R20). -/
def State.setReg (s : State) (r : Reg) (v : Word) : State := { s with regs := s.regs.set r v }

/-- `pc <- v` (R22). -/
def State.setPc (s : State) (v : Word) : State := { s with pc := v }

/-- `psr <- v` (R24). -/
def State.setPsr (s : State) (v : Word) : State := { s with psr := v }

/-- PC-relative address: `pc + sext_N(offset)`, with the incremented pc, modulo 2^16 (R115 a, R23). -/
def pcRelative {n : Nat} (off : BitVec n) (s : State) : Word := s.pc + sext off

/-- Base plus offset: `x[BaseR] + sext_6(offset6)`, modulo 2^16 (R115 a). -/
def basePlus (base : Reg) (off : BitVec 6) (s : State) : Word := s.reg base + sext off

end Sys2Proof.Machine
end

