-- ==== Sys2Proof/Machine/Flags.lean ====
section
/-! DEFINITION. The status word's fields and the condition flags (spec/10_state.md R24 to R28). -/

namespace Sys2Proof.Machine

/-- N, Z, P as the 3-bit number `psr[2:0]` (R24). -/
def flagBits (psr : Word) : BitVec 3 := psr.extractLsb' 0 3

/-- The privilege bit: true is user mode, false supervisor (R24, R161). -/
def inUserMode (psr : Word) : Bool := psr.getLsbD privBit

/-- The flag pattern of a value: N, Z or P, exactly one (R26). -/
def flagsOf (v : Word) : Word :=
  if v.getLsbD 15 then 0b100#16 else if v = 0#16 then 0b010#16 else 0b001#16

/-- `setcc(v)` on the status word: `(psr & 0xFFF8) | f` (R26). -/
def psrWithFlags (psr v : Word) : Word := psr &&& 0xFFF8#16 ||| flagsOf v

/-- `setcc(v)` (R26). -/
def setcc (v : Word) (s : State) : State := s.setPsr (psrWithFlags s.psr v)

/-- `x[DR] <- v` and then `setcc(v)`, the end of every rule that writes a register and the flags
(R25, R105 to R109, R116, R118, R120, R122, R132). -/
def writeResult (dr : Reg) (v : Word) (s : State) : State := setcc v (s.setReg dr v)

/-- The condition bits of a BR as the 3-bit number `ir[11:9]` (R73, R100). -/
def conditionBits (n z p : Bool) : BitVec 3 :=
  (BitVec.ofBool n).setWidth 3 <<< 2 ||| (BitVec.ofBool z).setWidth 3 <<< 1 |||
    (BitVec.ofBool p).setWidth 3

/-- BR's test: `(ir[11:9] & psr[2:0]) != 0` (R100). -/
def branchTaken (n z p : Bool) (psr : Word) : Bool := conditionBits n z p &&& flagBits psr != 0#3

end Sys2Proof.Machine
end

