-- ==== Sys2Proof/Machine/Ops.lean ====
section
/-! DEFINITION. The named operations over memory, the input source, the output sink and the run
state (spec/20_memory.md, spec/10_state.md R31 to R33), taking a fatal condition and returning from
an interrupt (spec/60_exceptions.md R155, spec/44_system.md R130), and the string walk (R135, R137). -/

namespace Sys2Proof.Machine

/-! ### The memory array -/

/-- The word listed for address `a`, or what an unlisted address reads as. -/
def readCells (a : Nat) : List (Nat × Word) → Word
  | [] => unlistedWord
  | (b, w) :: rest => if a = b then w else readCells a rest

/-- Put a cell before the first cell of a larger address. -/
def insertCell (a : Nat) (v : Word) : List (Nat × Word) → List (Nat × Word)
  | [] => [(a, v)]
  | (b, w) :: rest => if a < b then (a, v) :: (b, w) :: rest else (b, w) :: insertCell a v rest

/-- The cells but those of address `a`. -/
def dropCell (a : Nat) : List (Nat × Word) → List (Nat × Word)
  | [] => []
  | (b, w) :: rest => if a = b then dropCell a rest else (b, w) :: dropCell a rest

/-- The word at address `a`, with no side effect: `mem[a]` (R29). -/
def Memory.read (m : Memory) (a : Nat) : Word := readCells a m.cells

/-- `mem[a] <- v` (R45), in canonical form: a cell that holds `unlistedWord` is not listed. -/
def Memory.write (m : Memory) (a : Nat) (v : Word) : Memory :=
  if v = unlistedWord then ⟨dropCell a m.cells⟩ else ⟨insertCell a v (dropCell a m.cells)⟩

/-- Addresses rise strictly from `low`, lie in the address space, and no cell holds `unlistedWord`. -/
def wfCells : Nat → List (Nat × Word) → Bool
  | _, [] => true
  | low, (a, v) :: rest =>
    decide (low ≤ a) && decide (a < memWords) && decide (v ≠ unlistedWord) && wfCells (a + 1) rest

/-- The canonical form of memory. -/
def Memory.wf (m : Memory) : Bool := wfCells 0 m.cells

/-- `mem[a]` of a state, read without the poll. -/
def State.peek (s : State) (a : Word) : Word := s.mem.read a.toNat

/-! ### The access primitives (R44 to R47) -/

/-- `MemWrite(a, 1, v)`: "mem[a] <- v, for every address a, with no side effect, no poll and no fault" (R45, R48). -/
def memWrite (a v : Word) (s : State) : State := { s with mem := s.mem.write a.toNat v }

/-- `InPoll()`: take the head byte of the input queue, or nothing (R47). -/
def inPoll (s : State) : Option Byte × State :=
  match s.inQ with
  | [] => (none, s)
  | b :: rest => (some b, { s with inQ := rest })

/-- What a read of `STATUS_ADDR` does before it returns the cell (R44). -/
def pollStatus (s : State) : State :=
  match inPoll s with
  | (some b, t) => memWrite dataAddr (zext8 b) (memWrite statusAddr statusReady t)
  | (none, t) => memWrite statusAddr statusIdle t

/-- `MemRead(a, 1)`: `mem[a]`, after the poll when `a = STATUS_ADDR` (R44). Every read the core makes is
this one (R49). -/
def memRead (a : Word) (s : State) : Word × State :=
  if a = statusAddr then ((pollStatus s).peek a, pollStatus s) else (s.peek a, s)

/-- `InWait()`: the byte at the head of the queue; `none` is a held step (R133, log entry 5). -/
def inWait (s : State) : Option (Byte × State) :=
  match s.inQ with
  | [] => none
  | b :: rest => some (b, { s with inQ := rest })

/-- `OutByte` of each byte in order (R33). -/
def outBytes (bs : List Byte) (s : State) : State := { s with outLog := s.outLog ++ bs }

/-! ### Halting, fatal conditions, return from interrupt -/

/-- The codes of R32 and R153: "0 NONE, 1 TRAP_HALT, 2 ILLEGAL_OPCODE, 3 PRIVILEGE_VIOLATION". -/
def HaltCause.code : HaltCause → BitVec 2
  | .none => 0#2
  | .trapHalt => 1#2
  | .illegalOpcode => 2#2
  | .privilegeViolation => 3#2

/-- `halt(cause)`: `run <- HALTED; halt_cause <- cause` (R32). -/
def halt (cause : HaltCause) (s : State) : State := { s with run := .halted, haltCause := cause }

/-- The cause code a fatal condition records (R154). -/
def FatalCondition.cause : FatalCondition → HaltCause
  | .illegalOpcode => .illegalOpcode
  | .privilegeViolation => .privilegeViolation

/-- Taking a fatal condition: "It saves no state, changes no mode, switches no stack, and transfers
control nowhere" (R155); the core halts with the condition's cause. -/
def raiseFatal (e : FatalCondition) (s : State) : State := halt e.cause s

/-- One pop of RTI: `MemRead(x[6], 1)` and then `x[6] <- x[6] + 1` (R130). -/
def popStack (s : State) : Word × State :=
  let r := memRead (s.reg .r6) s
  (r.1, r.2.setReg .r6 (r.2.reg .r6 + 1#16))

/-- Return from interrupt, permitted: pop the pc, pop the status word, load both (R130, D17). -/
def returnFromInterrupt (s : State) : State :=
  let t := popStack s
  let w := popStack t.2
  (w.2.setPc t.1).setPsr w.1

/-- "TRAP saves PC into register 7 before dispatch" (R131); JSR and JSRR save the same link (R127, R128). -/
def saveLink (s : State) : State := s.setReg .r7 s.pc

/-! ### String walks -/

/-- The loop of R135 and R137 on at most `fuel` words from address `a`: read a word, stop when `stop`
says so, else emit its bytes and go on at `a + 1` modulo 2^16. -/
def stringWalk (stop : Word → Bool) (bytes : Word → List Byte) : Nat → Word → State → Result
  | 0, _, _ => .fault .walkNeverEnds
  | fuel + 1, a, s =>
    let r := memRead a s
    if stop r.1 then .next r.2
    else stringWalk stop bytes fuel (a + 1#16) (outBytes (bytes r.1) r.2)

/-- Words enough for any walk that ends: each turn of the address space passes `STATUS_ADDR` once,
which takes one byte of input or reads 0x0000 and ends the walk (R141, log entry 6). -/
def walkFuel (s : State) : Nat := memWords * (s.inQ.length + 1)

end Sys2Proof.Machine
end

