-- ==== Sys2Proof/Machine/Branch.lean ====
section
/-! DEFINITION. The conditional branch (spec/40_branch.md). -/

namespace Sys2Proof.Machine

/-- BR (R100): `pc <- pc + sext_9(PCoffset9)` if a selected flag is set. -/
def execBr (n z p : Bool) (off : BitVec 9) (s : State) : Result :=
  .next (if branchTaken n z p s.psr then s.setPc (pcRelative off s) else s)

end Sys2Proof.Machine
end

