-- ==== Sys2Proof/Machine/Jump.lean ====
section
/-! DEFINITION. Jumps and subroutine calls (spec/43_jump.md). -/

namespace Sys2Proof.Machine

/-- JMP, and RET when the base is r7 (R125, R126). -/
def execJmp (base : Reg) (s : State) : Result := .next (s.setPc (s.reg base))

/-- JSR (R127): the target is relative to the incremented pc. -/
def execJsr (off : BitVec 11) (s : State) : Result := .next ((saveLink s).setPc (pcRelative off s))

/-- JSRR (R128): the link is written first and the base read after it, so JSRR R7 falls through
(D19; UNVERIFIED, log entry 12). -/
def execJsrr (base : Reg) (s : State) : Result := .next ((saveLink s).setPc ((saveLink s).reg base))

end Sys2Proof.Machine
end

