-- ==== Sys2Proof/Machine/LoadStore.lean ====
section
/-! DEFINITION. Loads, stores and load effective address (spec/42_load_store.md). The effective
address is computed first, then the accesses happen, then the destination and the flags are written
(R115 c). -/

namespace Sys2Proof.Machine

/-- LD (R116). -/
def execLd (dr : Reg) (off : BitVec 9) (s : State) : Result :=
  let r := memRead (pcRelative off s) s
  .next (writeResult dr r.1 r.2)

/-- ST (R117). -/
def execSt (sr : Reg) (off : BitVec 9) (s : State) : Result :=
  .next (memWrite (pcRelative off s) (s.reg sr) s)

/-- LDI (R118): the first read is the pointer, the second the data. -/
def execLdi (dr : Reg) (off : BitVec 9) (s : State) : Result :=
  let p := memRead (pcRelative off s) s
  let r := memRead p.1 p.2
  .next (writeResult dr r.1 r.2)

/-- STI (R119): one read, the pointer, then one write. -/
def execSti (sr : Reg) (off : BitVec 9) (s : State) : Result :=
  let p := memRead (pcRelative off s) s
  .next (memWrite p.1 (p.2.reg sr) p.2)

/-- LDR (R120). -/
def execLdr (dr base : Reg) (off : BitVec 6) (s : State) : Result :=
  let r := memRead (basePlus base off s) s
  .next (writeResult dr r.1 r.2)

/-- STR (R121). -/
def execStr (sr base : Reg) (off : BitVec 6) (s : State) : Result :=
  .next (memWrite (basePlus base off s) (s.reg sr) s)

/-- LEA (R122): no memory access; the flags are set. -/
def execLea (dr : Reg) (off : BitVec 9) (s : State) : Result :=
  .next (writeResult dr (pcRelative off s) s)

end Sys2Proof.Machine
end

