-- ==== Sys2Proof/Machine/Operate.lean ====
section
/-! DEFINITION. The operate instructions (spec/41_operate.md). -/

namespace Sys2Proof.Machine

/-- ADD, register form (R105). -/
def execAddReg (dr sr1 sr2 : Reg) (s : State) : Result :=
  .next (writeResult dr (s.reg sr1 + s.reg sr2) s)

/-- ADD, immediate form (R106). -/
def execAddImm (dr sr1 : Reg) (imm : BitVec 5) (s : State) : Result :=
  .next (writeResult dr (s.reg sr1 + sext imm) s)

/-- AND, register form (R107). -/
def execAndReg (dr sr1 sr2 : Reg) (s : State) : Result :=
  .next (writeResult dr (s.reg sr1 &&& s.reg sr2) s)

/-- AND, immediate form (R108). -/
def execAndImm (dr sr1 : Reg) (imm : BitVec 5) (s : State) : Result :=
  .next (writeResult dr (s.reg sr1 &&& sext imm) s)

/-- NOT (R109): "every one of the 16 bits inverted". -/
def execNot (dr sr : Reg) (s : State) : Result :=
  .next (writeResult dr (s.reg sr ^^^ 0xFFFF#16) s)

end Sys2Proof.Machine
end

