-- ==== Sys2Proof/Machine/System.lean ====
section
/-! DEFINITION. RTI, the trap dispatcher's routines and the reserved opcode (spec/44_system.md). -/

namespace Sys2Proof.Machine

/-- RTI (R130): the privilege check comes before any access or change (D18). -/
def execRti (s : State) : Result :=
  if inUserMode s.psr then .next (raiseFatal .privilegeViolation s) else .next (returnFromInterrupt s)

/-- GETC (R132). -/
def execTrapGetc (s : State) : Result :=
  match inWait (saveLink s) with
  | none => .fault .heldForInput
  | some (c, t) => .next (writeResult .r0 (zext8 c) t)

/-- OUT (R134): the low byte of register 0. -/
def execTrapOut (s : State) : Result :=
  .next (outBytes [lowByte ((saveLink s).reg .r0)] (saveLink s))

/-- PUTS stops at a whole zero word (R135, D15). -/
def putsStop (w : Word) : Bool := w == 0x0000#16

/-- PUTS emits the low byte of a word (R135). -/
def putsBytes (w : Word) : List Byte := [lowByte w]

/-- The loop of PUTS from address `a` (R135). -/
def putsWalk (a : Word) (s : State) : Result := stringWalk putsStop putsBytes (walkFuel s) a s

/-- PUTS (R135). -/
def execTrapPuts (s : State) : Result := putsWalk ((saveLink s).reg .r0) (saveLink s)

/-- IN (R136): prompt, blocking read, echo, register 0, and the flags if `IN_SETS_FLAGS`. -/
def execTrapIn (s : State) : Result :=
  match inWait (outBytes inPrompt (saveLink s)) with
  | none => .fault .heldForInput
  | some (c, t) =>
    let u := (outBytes [c] t).setReg .r0 (zext8 c)
    .next (if inSetsFlags then setcc (zext8 c) u else u)

/-- PUTSP stops at a zero low byte, whatever the high byte (R137). -/
def putspStop (w : Word) : Bool := lowByte w == 0x00#8

/-- PUTSP emits the low byte, then the high byte if it is not zero (R137). -/
def putspBytes (w : Word) : List Byte :=
  if highByte w = 0x00#8 then [lowByte w] else [lowByte w, highByte w]

/-- The loop of PUTSP from address `a` (R137). -/
def putspWalk (a : Word) (s : State) : Result := stringWalk putspStop putspBytes (walkFuel s) a s

/-- PUTSP (R137). -/
def execTrapPutsp (s : State) : Result := putspWalk ((saveLink s).reg .r0) (saveLink s)

/-- HALT (R138). -/
def execTrapHalt (s : State) : Result := .next (halt .trapHalt (outBytes haltMessage (saveLink s)))

/-- TRAP with any other vector (R139): only the link is written. -/
def execTrapUnrecognised (_vect : BitVec 8) (s : State) : Result := .next (saveLink s)

/-- The reserved opcode (R140). -/
def execReserved (s : State) : Result := .next (raiseFatal .illegalOpcode s)

end Sys2Proof.Machine
end

