-- ==== Sys2Proof/WellFormed.lean ====
section
/-! DEFINITION. Which terms of `Instr` an instruction word can stand for. Every field but one ranges
over all the values of its type; the vector of the unrecognised TRAP is none of the six recognised
ones (spec/44_system.md R131, R139). -/

namespace Sys2Proof

/-- The vector of an unrecognised TRAP is not one of the six the dispatcher recognises (R139). -/
def vectorUnrecognised (v : BitVec 8) : Bool := !(Machine.recognisedVectors.contains v)

/-- An instruction is well formed when some word decodes to it. -/
def Instr.wellFormed : Instr → Bool
  | .br _ _ _ _ => true
  | .addReg _ _ _ => true
  | .addImm _ _ _ => true
  | .ld _ _ => true
  | .st _ _ => true
  | .jsr _ => true
  | .jsrr _ => true
  | .andReg _ _ _ => true
  | .andImm _ _ _ => true
  | .ldr _ _ _ => true
  | .str _ _ _ => true
  | .rti => true
  | .not _ _ => true
  | .ldi _ _ => true
  | .sti _ _ => true
  | .jmp _ => true
  | .reserved => true
  | .lea _ _ => true
  | .trapGetc => true
  | .trapOut => true
  | .trapPuts => true
  | .trapIn => true
  | .trapPutsp => true
  | .trapHalt => true
  | .trapUnrecognised v => vectorUnrecognised v

end Sys2Proof
end

