-- ==== Sys2Proof/Decode.lean ====
section
/-! DEFINITION. The decoder, total on every 16-bit word (spec/30_encoding.md R70 to R80), the encoder
(the words of R90), and the opcode table as data. No word is without an instruction: the one
illegal opcode, 1101, decodes to `reserved` (R77, R80). -/

namespace Sys2Proof

/-- The register a 3-bit field names: fields "are used as indices 0 to 7 directly" (R74). -/
def Reg.ofBits (b : BitVec 3) : Reg :=
  match b.toNat with
  | 0 => .r0
  | 1 => .r1
  | 2 => .r2
  | 3 => .r3
  | 4 => .r4
  | 5 => .r5
  | 6 => .r6
  | _ => .r7

/-- `Rk` encodes as the 3-bit number k (R88). -/
def Reg.toBits : Reg → BitVec 3
  | .r0 => 0#3
  | .r1 => 1#3
  | .r2 => 2#3
  | .r3 => 3#3
  | .r4 => 4#3
  | .r5 => 5#3
  | .r6 => 6#3
  | .r7 => 7#3

/-- `opcode = ir[15:12]` (R71). -/
def opcodeField (ir : Word) : BitVec 4 := ir.extractLsb' 12 4

/-- DR, or the SR of a store: `ir[11:9]` (R73). -/
def regField9 (ir : Word) : Reg := Reg.ofBits (ir.extractLsb' 9 3)

/-- SR1, the SR of NOT, or BaseR: `ir[8:6]` (R73). -/
def regField6 (ir : Word) : Reg := Reg.ofBits (ir.extractLsb' 6 3)

/-- SR2: `ir[2:0]` (R73). -/
def regField0 (ir : Word) : Reg := Reg.ofBits (ir.extractLsb' 0 3)

/-- `imm5 = ir[4:0]` (R73). -/
def imm5Field (ir : Word) : BitVec 5 := ir.extractLsb' 0 5

/-- `offset6 = ir[5:0]` (R73). -/
def offset6Field (ir : Word) : BitVec 6 := ir.extractLsb' 0 6

/-- `PCoffset9 = ir[8:0]` (R73). -/
def offset9Field (ir : Word) : BitVec 9 := ir.extractLsb' 0 9

/-- `PCoffset11 = ir[10:0]` (R73). -/
def offset11Field (ir : Word) : BitVec 11 := ir.extractLsb' 0 11

/-- `trapvect8 = ir[7:0]` (R73). -/
def trapvect8Field (ir : Word) : BitVec 8 := ir.extractLsb' 0 8

/-- The TRAP handler sub-dispatches on the vector (R71, R131). -/
def decodeTrap (v : BitVec 8) : Instr :=
  if v = Machine.vecGetc then .trapGetc
  else if v = Machine.vecOut then .trapOut
  else if v = Machine.vecPuts then .trapPuts
  else if v = Machine.vecIn then .trapIn
  else if v = Machine.vecPutsp then .trapPutsp
  else if v = Machine.vecHalt then .trapHalt
  else .trapUnrecognised v

/-- The decoder: the opcode selects the handler, and ADD, AND look at `ir[5]`, JSR/JSRR at `ir[11]`
(R71, R75). The opcode numbers are D2, the field positions D3 (UNVERIFIED, log entry 9). -/
def decode (ir : Word) : Instr :=
  match (opcodeField ir).toNat with
  | 0 => .br (ir.getLsbD 11) (ir.getLsbD 10) (ir.getLsbD 9) (offset9Field ir)
  | 1 =>
    if ir.getLsbD 5 then .addImm (regField9 ir) (regField6 ir) (imm5Field ir)
    else .addReg (regField9 ir) (regField6 ir) (regField0 ir)
  | 2 => .ld (regField9 ir) (offset9Field ir)
  | 3 => .st (regField9 ir) (offset9Field ir)
  | 4 => if ir.getLsbD 11 then .jsr (offset11Field ir) else .jsrr (regField6 ir)
  | 5 =>
    if ir.getLsbD 5 then .andImm (regField9 ir) (regField6 ir) (imm5Field ir)
    else .andReg (regField9 ir) (regField6 ir) (regField0 ir)
  | 6 => .ldr (regField9 ir) (regField6 ir) (offset6Field ir)
  | 7 => .str (regField9 ir) (regField6 ir) (offset6Field ir)
  | 8 => .rti
  | 9 => .not (regField9 ir) (regField6 ir)
  | 10 => .ldi (regField9 ir) (offset9Field ir)
  | 11 => .sti (regField9 ir) (offset9Field ir)
  | 12 => .jmp (regField6 ir)
  | 13 => .reserved
  | 14 => .lea (regField9 ir) (offset9Field ir)
  | _ => decodeTrap (trapvect8Field ir)

/-- A field put in a word with its lowest bit at bit `low` (R73). -/
def place {n : Nat} (low : Nat) (field : BitVec n) : Word := field.setWidth 16 <<< low

/-- The words of an instruction (one, R70), with ignored bits as the assembler emits them (R90).
The reserved opcode has no assembler form, its ignored bits are 0 (DESIGN CHOICE, log entry 16). -/
def encode : Instr → Word
  | .br n z p off =>
    place 12 0x0#4 ||| place 11 (BitVec.ofBool n) ||| place 10 (BitVec.ofBool z) |||
      place 9 (BitVec.ofBool p) ||| place 0 off
  | .addReg dr sr1 sr2 =>
    place 12 0x1#4 ||| place 9 dr.toBits ||| place 6 sr1.toBits ||| place 5 0#1 ||| place 0 sr2.toBits
  | .addImm dr sr1 imm =>
    place 12 0x1#4 ||| place 9 dr.toBits ||| place 6 sr1.toBits ||| place 5 1#1 ||| place 0 imm
  | .ld dr off => place 12 0x2#4 ||| place 9 dr.toBits ||| place 0 off
  | .st sr off => place 12 0x3#4 ||| place 9 sr.toBits ||| place 0 off
  | .jsr off => place 12 0x4#4 ||| place 11 1#1 ||| place 0 off
  | .jsrr base => place 12 0x4#4 ||| place 11 0#1 ||| place 6 base.toBits
  | .andReg dr sr1 sr2 =>
    place 12 0x5#4 ||| place 9 dr.toBits ||| place 6 sr1.toBits ||| place 5 0#1 ||| place 0 sr2.toBits
  | .andImm dr sr1 imm =>
    place 12 0x5#4 ||| place 9 dr.toBits ||| place 6 sr1.toBits ||| place 5 1#1 ||| place 0 imm
  | .ldr dr base off => place 12 0x6#4 ||| place 9 dr.toBits ||| place 6 base.toBits ||| place 0 off
  | .str sr base off => place 12 0x7#4 ||| place 9 sr.toBits ||| place 6 base.toBits ||| place 0 off
  | .rti => place 12 0x8#4
  | .not dr sr =>
    place 12 0x9#4 ||| place 9 dr.toBits ||| place 6 sr.toBits ||| place 0 0b111111#6
  | .ldi dr off => place 12 0xA#4 ||| place 9 dr.toBits ||| place 0 off
  | .sti sr off => place 12 0xB#4 ||| place 9 sr.toBits ||| place 0 off
  | .jmp base => place 12 0xC#4 ||| place 6 base.toBits
  | .reserved => place 12 0xD#4
  | .lea dr off => place 12 0xE#4 ||| place 9 dr.toBits ||| place 0 off
  | .trapGetc => place 12 0xF#4 ||| place 0 Machine.vecGetc
  | .trapOut => place 12 0xF#4 ||| place 0 Machine.vecOut
  | .trapPuts => place 12 0xF#4 ||| place 0 Machine.vecPuts
  | .trapIn => place 12 0xF#4 ||| place 0 Machine.vecIn
  | .trapPutsp => place 12 0xF#4 ||| place 0 Machine.vecPutsp
  | .trapHalt => place 12 0xF#4 ||| place 0 Machine.vecHalt
  | .trapUnrecognised v => place 12 0xF#4 ||| place 0 v

/-- The instruction the decoder reads from an instruction whose bits are `w` (the first word's least
significant bit first). Every instruction is one word of 16 bits (R70); bits above `nbits` are 0. -/
def decodeTableWord (nbits w : Nat) : Option Instr :=
  if nbits ≤ 16 ∧ w < 2 ^ nbits then some (decode (BitVec.ofNat 16 w)) else none

/-- An instruction's mnemonic as spec/opcode_table.json spells it. -/
def Instr.mnemonic : Instr → String
  | .br _ _ _ _ => "BR"
  | .addReg _ _ _ => "ADD"
  | .addImm _ _ _ => "ADD"
  | .ld _ _ => "LD"
  | .st _ _ => "ST"
  | .jsr _ => "JSR"
  | .jsrr _ => "JSRR"
  | .andReg _ _ _ => "AND"
  | .andImm _ _ _ => "AND"
  | .ldr _ _ _ => "LDR"
  | .str _ _ _ => "STR"
  | .rti => "RTI"
  | .not _ _ => "NOT"
  | .ldi _ _ => "LDI"
  | .sti _ _ => "STI"
  | .jmp _ => "JMP"
  | .reserved => "RESERVED"
  | .lea _ _ => "LEA"
  | .trapGetc => "GETC"
  | .trapOut => "OUT"
  | .trapPuts => "PUTS"
  | .trapIn => "IN"
  | .trapPutsp => "PUTSP"
  | .trapHalt => "HALT"
  | .trapUnrecognised _ => "TRAP__unrecognised_vector"

/-- One row of spec/opcode_table.json. -/
structure OpcodeRow where
  mnemonic : String
  pattern : Word
  mask : Word
  deriving DecidableEq, Repr

/-- A word matches a row when its bits under the mask are the row's pattern (R75). -/
def OpcodeRow.matchesWord (row : OpcodeRow) (w : Word) : Bool := w &&& row.mask == row.pattern

/-- The rows of opcodes 0000 to 0111. -/
def opcodeRowsLow : List OpcodeRow := [
  ⟨"BR", 0x0000#16, 0xF000#16⟩,
  ⟨"ADD", 0x1000#16, 0xF020#16⟩,
  ⟨"ADD", 0x1020#16, 0xF020#16⟩,
  ⟨"LD", 0x2000#16, 0xF000#16⟩,
  ⟨"ST", 0x3000#16, 0xF000#16⟩,
  ⟨"JSR", 0x4800#16, 0xF800#16⟩,
  ⟨"JSRR", 0x4000#16, 0xF800#16⟩,
  ⟨"AND", 0x5000#16, 0xF020#16⟩,
  ⟨"AND", 0x5020#16, 0xF020#16⟩,
  ⟨"LDR", 0x6000#16, 0xF000#16⟩,
  ⟨"STR", 0x7000#16, 0xF000#16⟩]

/-- The rows of opcodes 1000 to 1110. -/
def opcodeRowsHigh : List OpcodeRow := [
  ⟨"RTI", 0x8000#16, 0xF000#16⟩,
  ⟨"NOT", 0x9000#16, 0xF000#16⟩,
  ⟨"LDI", 0xA000#16, 0xF000#16⟩,
  ⟨"STI", 0xB000#16, 0xF000#16⟩,
  ⟨"JMP", 0xC000#16, 0xF000#16⟩,
  ⟨"RESERVED", 0xD000#16, 0xF000#16⟩,
  ⟨"LEA", 0xE000#16, 0xF000#16⟩]

/-- The rows of opcode 1111: the six recognised vectors and the complement, split in six (R75). -/
def opcodeRowsTrap : List OpcodeRow := [
  ⟨"GETC", 0xF020#16, 0xF0FF#16⟩,
  ⟨"OUT", 0xF021#16, 0xF0FF#16⟩,
  ⟨"PUTS", 0xF022#16, 0xF0FF#16⟩,
  ⟨"IN", 0xF023#16, 0xF0FF#16⟩,
  ⟨"PUTSP", 0xF024#16, 0xF0FF#16⟩,
  ⟨"HALT", 0xF025#16, 0xF0FF#16⟩,
  ⟨"TRAP__unrecognised_vector", 0xF080#16, 0xF080#16⟩,
  ⟨"TRAP__unrecognised_vector", 0xF040#16, 0xF0C0#16⟩,
  ⟨"TRAP__unrecognised_vector", 0xF000#16, 0xF0E0#16⟩,
  ⟨"TRAP__unrecognised_vector", 0xF030#16, 0xF0F0#16⟩,
  ⟨"TRAP__unrecognised_vector", 0xF028#16, 0xF0F8#16⟩,
  ⟨"TRAP__unrecognised_vector", 0xF026#16, 0xF0FE#16⟩]

/-- The 30 rows of spec/opcode_table.json (R75). -/
def opcodeRows : List OpcodeRow := opcodeRowsLow ++ opcodeRowsHigh ++ opcodeRowsTrap

end Sys2Proof
end

