-- ==== Sys2Proof/Machine/Fetch.lean ====
section
/-! DEFINITION. The fetch of a step and its placing of a word for the next fetch (spec/00_scope.md R10). -/

namespace Sys2Proof.Machine

/-- The fetch: `ir <- MemRead(pc, 1)`, which polls when `pc = STATUS_ADDR`, and then `pc <- pc + 1`,
which wraps (R10). -/
def fetch (s : State) : Word × State :=
  let r := memRead s.pc s
  (r.1, r.2.setPc (r.2.pc + 1#16))

/-- Where a word is placed so that the next step fetches it: at the pc. The fetch at `STATUS_ADDR`
reads what the poll writes and no placed word (R49), so in that one case the pc moves to `RESET_PC`
(DESIGN CHOICE, log entry 10). -/
def placePc (s : State) : Word := if s.pc = statusAddr then resetPc else s.pc

/-- A running machine whose next fetch reads `w` (log entry 10). -/
def placeFetchWord (s : State) (w : Word) : State :=
  memWrite (placePc s) w { s with pc := placePc s, run := .running, haltCause := .none }

end Sys2Proof.Machine
end

