-- ==== Sys2Proof/Machine/Step.lean ====
section
/-! DEFINITION. One step (spec/00_scope.md R10). -/

namespace Sys2Proof.Machine

/-- `step()`: in HALTED nothing changes (R32, D22); else fetch, increment the pc, execute (R10). -/
def step (s : State) : Host.Outcome State Fault Refusal :=
  match s.run with
  | .halted => .next s
  | .running => exec (decode (fetch s).1) (fetch s).2

/-- `s` with the one-word instruction `w` stored where the next step fetches. Every instruction has 16
bits (R70), so `nbits` says nothing more: the bits of `w` above it are 0. It stands for a load of
the program from outside the machine (log entry 10). -/
def State.withFetchWord (s : State) (_nbits w : Nat) : State := placeFetchWord s (BitVec.ofNat 16 w)

end Sys2Proof.Machine
end

