-- ==== Sys2Proof/Machine/HostActions.lean ====
section
/-! DEFINITION. What the host can do to the core: append input, ask whether it has halted, load object
files before the run, launch it and run it under a schedule of appends (spec/60_exceptions.md R165,
spec/70_reset_and_hazards.md R176 to R180). -/

namespace Sys2Proof.Machine

/-- "The host may append any bytes to the tail at any moment between two steps" (R33, D24). -/
def hostAppend (bs : List Byte) (s : State) : State := { s with inQ := s.inQ ++ bs }

/-- `isHalted() -> bool`: "reads run and changes nothing" (R165). -/
def isHalted (s : State) : Bool := decide (s.run = .halted)

/-- `StepResult`: the run state after the step (R165). -/
def stepResult : Result → Option RunState
  | .next s => some s.run
  | .fault _ => none
  | .refused _ => none

/-- Why the loader rejects a file (R178); the names are the model's (DESIGN CHOICE, log entry 18). -/
inductive LoadError where
  /-- Fewer than 2 bytes. -/
  | tooShort
  /-- An odd number of bytes. -/
  | oddLength
  /-- `origin + N > 65536`. -/
  | pastEnd
  deriving DecidableEq, Repr

/-- `Result<(), LoadError>` of `loadObject`, with the engine's state when the file is accepted. -/
inductive LoadResult where
  | loaded (s : State)
  | rejected (e : LoadError)
  deriving DecidableEq, Repr

/-- The words of a byte string, low byte first (R177, D26); `none` if a byte is left over. -/
def wordsOfBytes : List Byte → Option (List Word)
  | [] => some []
  | [_] => none
  | lo :: hi :: rest => (wordsOfBytes rest).map (wordOfBytes lo hi :: ·)

/-- Write words at rising addresses from `a` (R177): plain writes, no poll. -/
def writeWords : Nat → List Word → Memory → Memory
  | _, [], m => m
  | a, w :: ws, m => writeWords (a + 1) ws (m.write a w)

/-- `loadObject(bytes)` (R177, R178): the origin, then the words, low byte first; it writes memory and
nothing else (R180). The host calls it only before the first step (D31). -/
def loadObject (bytes : List Byte) (s : State) : LoadResult :=
  match bytes with
  | [] => .rejected .tooShort
  | [_] => .rejected .tooShort
  | lo :: hi :: rest =>
    match wordsOfBytes rest with
    | none => .rejected .oddLength
    | some ws =>
      if (wordOfBytes lo hi).toNat + ws.length ≤ memWords then
        .loaded { s with mem := writeWords (wordOfBytes lo hi).toNat ws s.mem }
      else .rejected .pastEnd

/-- The engine after an attempt to load: "a bad file is skipped, not fatal to the whole load" (R178). -/
def LoadResult.orKeep (r : LoadResult) (s : State) : State :=
  match r with
  | .loaded t => t
  | .rejected _ => s

/-- The origin a file names, low byte first (R177). -/
def objectOrigin : List Byte → Option Word
  | lo :: hi :: _ => some (wordOfBytes lo hi)
  | _ => none

/-- The file's origin lies in [`ORIGIN_MIN`, `ORIGIN_MAX`], "an invariant of the data model" (R5,
spec/20_memory.md R52). The assembler checks it and the loader does not (R178): `loadObject` never asks. -/
def originInRange (bytes : List Byte) : Bool :=
  match objectOrigin bytes with
  | some origin => decide (originMin ≤ origin ∧ origin ≤ originMax)
  | none => false

/-- Several files in the order the host makes the loads (R179). -/
def loadObjects : List (List Byte) → State → State
  | [], s => s
  | file :: files, s => loadObjects files ((loadObject file s).orKeep s)

/-- A run under "the schedule by which the host appends" (R176): entry k of the schedule is appended
just before call k of `step`, and the call may append nothing. A held step stays held until its next
turn, with the bytes appended so far waiting (R33, R133); every other stop ends the run (log entry 22). -/
def runScheduled : List (List Byte) → State → Result
  | [], s => .next s
  | bs :: schedule, s =>
    match step (hostAppend bs s) with
    | .next t => runScheduled schedule t
    | .fault .heldForInput => runScheduled schedule (hostAppend bs s)
    | .fault .walkNeverEnds => .fault .walkNeverEnds
    | .refused r => .refused r

/-- "The launch state a model takes as arguments" (R176). `HALT_MESSAGE`, its last item, is the free
value of Config. -/
structure Launch where
  /-- `RESET_PC`. -/
  pc : Word
  /-- `RESET_PSR`. -/
  psr : Word
  /-- The eight general registers. -/
  regs : RegFile
  /-- What memory holds before any load. -/
  mem : Memory
  /-- The object files loaded, in order (R179). -/
  files : List (List Byte)
  /-- The input queue's content. -/
  inQ : List Byte
  /-- What the host appends before each call of `step`. -/
  schedule : List (List Byte)
  deriving DecidableEq, Repr

/-- The state before the first step: the launch state with the object files loaded (R176, R179). -/
def Launch.start (l : Launch) : State :=
  loadObjects l.files (State.launch l.pc l.psr l.regs l.mem l.inQ)

/-- The state after as many calls of `step` as the schedule has entries. -/
def Launch.run (l : Launch) : Result := runScheduled l.schedule l.start

end Sys2Proof.Machine
end

