-- ==== Sys2Proof/Safety.lean ====
section
/-! DEFINITION. What claims say of states and runs: the invariant of the machine, how a run ends
(spec/60_exceptions.md R167), the one-flag property (spec/10_state.md R27). -/

namespace Sys2Proof.Machine

/-- The invariant every step keeps: memory is in canonical form, and a halt cause is recorded exactly
when the core has halted (R31, R32). -/
def State.Inv (s : State) : Prop :=
  s.mem.wf = true ∧ (s.run = .running ↔ s.haltCause = .none)

/-- "It has ended normally when halt_cause = TRAP_HALT" (R167). -/
def State.EndedNormally (s : State) : Prop := s.run = .halted ∧ s.haltCause = .trapHalt

/-- The run has ended by one of the two fatal conditions (R167). -/
def State.EndedByFault (s : State) : Prop :=
  s.run = .halted ∧ (s.haltCause = .illegalOpcode ∨ s.haltCause = .privilegeViolation)

/-- Exactly one of N, Z, P is set (R26, R27). -/
def OneFlag (psr : Word) : Prop :=
  flagBits psr = 0b100#3 ∨ flagBits psr = 0b010#3 ∨ flagBits psr = 0b001#3

/-- The core is in user mode (R161). -/
def State.UserMode (s : State) : Prop := inUserMode s.psr = true

end Sys2Proof.Machine
end

