-- ==== Sys2Proof/Certificates/Slice0/Obligations.lean ====
section
/-! DEFINITION. The statements for the provers. Each docstring names the rule of spec/ it formalises.
Addresses, fields and effects are written out here from the rules, in the terms below. -/

open Sys2Proof Sys2Proof.Machine

namespace Sys2Proof.Claims

/-! ### Terms of the statements -/

/-- The registers but those listed are unchanged. -/
def RegsSameBut (l : List Reg) (s t : State) : Prop := ∀ r, r ∉ l → t.reg r = s.reg r

/-- Every cell of memory but those at the listed addresses reads as before. -/
def MemSameBut (l : List Word) (s t : State) : Prop := ∀ a, a ∉ l → t.peek a = s.peek a

/-- The run state and the halt cause are unchanged. -/
def RunSame (s t : State) : Prop := t.run = s.run ∧ t.haltCause = s.haltCause

/-- The input queue and the output log are unchanged. -/
def HostSame (s t : State) : Prop := t.inQ = s.inQ ∧ t.outLog = s.outLog

/-- `new` has the flags of the value `v` (N if negative, Z if zero, P otherwise) and in every other bit
what `old` had (R26). -/
def FlagsFrom (v old new : Word) : Prop :=
  new.getLsbD 2 = v.getLsbD 15 ∧
  new.getLsbD 1 = decide (v = 0#16) ∧
  new.getLsbD 0 = (!v.getLsbD 15 && decide (v ≠ 0#16)) ∧
  ∀ k, 3 ≤ k → new.getLsbD k = old.getLsbD k

/-- Reading address `a` in state `s` gives the word `v` and leaves memory and input as in `t` (R44): a
plain read of every address but the status address, and there a poll first. Only the memory and the
input of `t` are spoken of. -/
def ReadsTo (a : Word) (s : State) (v : Word) (t : State) : Prop :=
  if a = statusAddr then
    match s.inQ with
    | [] =>
      v = 0x0000#16 ∧ t.inQ = [] ∧ t.peek statusAddr = 0x0000#16 ∧ MemSameBut [statusAddr] s t
    | b :: rest =>
      v = 0x8000#16 ∧ t.inQ = rest ∧ t.peek statusAddr = 0x8000#16 ∧
        t.peek dataAddr = b.setWidth 16 ∧ MemSameBut [statusAddr, dataAddr] s t
  else v = s.peek a ∧ t.inQ = s.inQ ∧ MemSameBut [] s t

/-- `t` is `s` with `v` in register `dr` and the flags of `v`, and nothing else changed. -/
def ResultIn (dr : Reg) (v : Word) (s t : State) : Prop :=
  t.reg dr = v ∧ RegsSameBut [dr] s t ∧ FlagsFrom v s.psr t.psr ∧ t.pc = s.pc ∧
    MemSameBut [] s t ∧ RunSame s t ∧ HostSame s t

/-- `t` is `s` after the word `v` was loaded into `dr`, in all but memory and input: the flags are those
of `v`. -/
def LoadedIn (dr : Reg) (v : Word) (s t : State) : Prop :=
  t.reg dr = v ∧ RegsSameBut [dr] s t ∧ FlagsFrom v s.psr t.psr ∧ t.pc = s.pc ∧
    RunSame s t ∧ t.outLog = s.outLog

/-- `t` is `s` with the word `v` stored at address `a`, and nothing else changed. -/
def StoredAt (a v : Word) (s t : State) : Prop :=
  t.peek a = v ∧ MemSameBut [a] s t ∧ RegsSameBut [] s t ∧ t.psr = s.psr ∧ t.pc = s.pc ∧
    RunSame s t ∧ HostSame s t

/-- `t` is `s` after a jump to `target`: nothing but the pc and the listed registers changed. -/
def JumpedTo (target : Word) (written : List Reg) (s t : State) : Prop :=
  t.pc = target ∧ RegsSameBut written s t ∧ t.psr = s.psr ∧ MemSameBut [] s t ∧ RunSame s t ∧
    HostSame s t

/-- `t` is `s` with the core halted for `cause`, and nothing else changed. -/
def HaltedBy (cause : HaltCause) (s t : State) : Prop :=
  t.run = .halted ∧ t.haltCause = cause ∧ t.pc = s.pc ∧ t.psr = s.psr ∧ RegsSameBut [] s t ∧
    MemSameBut [] s t ∧ HostSame s t

/-- What a TRAP leaves alone besides registers, input, output and the run state: the pc, the status word and memory. -/
def TrapKeeps (s t : State) : Prop := t.pc = s.pc ∧ t.psr = s.psr ∧ MemSameBut [] s t

/-- A function of the next state, applied to an answer. -/
def mapNext (f : State → State) : Result → Result
  | .next s => .next (f s)
  | .fault e => .fault e
  | .refused r => .refused r

/-- The bits of a word the decoder ignores (R76), chosen by its opcode and mode bits. -/
def ignoredBits (ir : Word) : Word :=
  match (ir.extractLsb' 12 4).toNat with
  | 1 => if ir.getLsbD 5 then 0x0000#16 else 0x0018#16
  | 4 => if ir.getLsbD 11 then 0x0000#16 else 0x063F#16
  | 5 => if ir.getLsbD 5 then 0x0000#16 else 0x0018#16
  | 8 => 0x0FFF#16
  | 9 => 0x003F#16
  | 12 => 0x0E3F#16
  | 13 => 0x0FFF#16
  | 15 => 0x0F00#16
  | _ => 0x0000#16

/-- The register from whose final value an instruction sets the flags (R25). -/
def flagRegister : Instr → Option Reg
  | .addReg dr _ _ => some dr
  | .addImm dr _ _ => some dr
  | .andReg dr _ _ => some dr
  | .andImm dr _ _ => some dr
  | .not dr _ => some dr
  | .ld dr _ => some dr
  | .ldi dr _ => some dr
  | .ldr dr _ _ => some dr
  | .lea dr _ => some dr
  | .trapGetc => some .r0
  | _ => none

/-- The registers an instruction may write (R21): the one DR names, register 7 for JSR, JSRR and every
TRAP, register 6 for a permitted RTI, register 0 for the two input traps. -/
def writtenRegs (i : Instr) (s : State) : List Reg :=
  match i with
  | .addReg dr _ _ => [dr]
  | .addImm dr _ _ => [dr]
  | .andReg dr _ _ => [dr]
  | .andImm dr _ _ => [dr]
  | .not dr _ => [dr]
  | .ld dr _ => [dr]
  | .ldi dr _ => [dr]
  | .ldr dr _ _ => [dr]
  | .lea dr _ => [dr]
  | .jsr _ => [.r7]
  | .jsrr _ => [.r7]
  | .rti => if s.psr.getLsbD 15 then [] else [.r6]
  | .trapGetc => [.r0, .r7]
  | .trapIn => [.r0, .r7]
  | .trapOut => [.r7]
  | .trapPuts => [.r7]
  | .trapPutsp => [.r7]
  | .trapHalt => [.r7]
  | .trapUnrecognised _ => [.r7]
  | .br _ _ _ _ => []
  | .st _ _ => []
  | .sti _ _ => []
  | .str _ _ _ => []
  | .jmp _ => []
  | .reserved => []

/-- The pc after `execute(ir)`, from the pc after the fetch (R23). -/
def pcAfter (i : Instr) (s : State) : Word :=
  match i with
  | .br n z p off =>
    if (n && s.psr.getLsbD 2) || (z && s.psr.getLsbD 1) || (p && s.psr.getLsbD 0) then s.pc + sext off
    else s.pc
  | .jmp base => s.reg base
  | .jsr off => s.pc + sext off
  | .jsrr base => if base = .r7 then s.pc else s.reg base
  | .rti => if s.psr.getLsbD 15 then s.pc else (memRead (s.reg .r6) s).1
  | _ => s.pc

/-- The bytes of an object file: the origin and then the words, each low byte first (R177). -/
def objectBytes (origin : Word) (ws : List Word) : List Byte :=
  (origin :: ws).flatMap fun w => [w.extractLsb' 0 8, w.extractLsb' 8 8]

end Sys2Proof.Claims

open Sys2Proof.Claims

/-! ### Encoding -/

/-- Decode and encode agree: every well-formed instruction, with every operand at every value, is read
back from its word (R72, R73, R75, R90). Derived. -/
def Obligations.DecodeReadsBackEncode : Prop :=
  ∀ i : Instr, i.wellFormed = true → decode (encode i) = i

/-- Every word decodes to a well-formed instruction, which the table word of 16 bits gives too (R70, R77). Derived. -/
def Obligations.EveryWordDecodesWellFormed : Prop :=
  ∀ w : Word, (decode w).wellFormed = true ∧ decodeTableWord 16 w.toNat = some (decode w)

/-- R80: every word matches exactly one row of the opcode table, and the decoder yields the
instruction of that row. -/
def Obligations.EveryWordMatchesExactlyOneRow : Prop :=
  ∀ w : Word, (opcodeRows.filter fun row => row.matchesWord w).map (fun row => row.mnemonic) =
    [(decode w).mnemonic]

/-- R76: words that differ in ignored bits only are the same instruction, in every state. -/
def Obligations.IgnoredBitsHaveNoEffect : Prop :=
  ∀ w v : Word, (w ^^^ v) &&& ~~~ignoredBits w = 0#16 →
    decode v = decode w ∧ ∀ s, exec (decode v) s = exec (decode w) s

/-- Words written out from R72 and R73, at least one of each of the twelve formats, decode to the
instructions they stand for: 0x1025 is the source's own word (R81). Derived. -/
def Obligations.SampleWordsDecode : Prop :=
  decode 0x1025#16 = .addImm .r0 .r0 5#5 ∧
  decode 0x03FD#16 = .br false false true 0x1FD#9 ∧
  decode 0x5042#16 = .andReg .r0 .r1 .r2 ∧
  decode 0xA602#16 = .ldi .r3 2#9 ∧
  decode 0x7E7F#16 = .str .r7 .r1 0x3F#6 ∧
  decode 0x907F#16 = .not .r0 .r1 ∧
  decode 0x4FFF#16 = .jsr 0x7FF#11 ∧
  decode 0x46BF#16 = .jsrr .r2 ∧
  decode 0x8FFF#16 = .rti ∧
  decode 0xDFFF#16 = .reserved ∧
  decode 0xC1C0#16 = .jmp .r7 ∧
  decode 0xFF21#16 = .trapOut ∧
  decode 0xF026#16 = .trapUnrecognised 0x26#8

/-- R8: sign extension of the fields of 5, 6, 9 and 11 bits ("if the field's high bit is set, OR in
all bits above position n"), which keeps the two's-complement value; and zero extension of a byte. -/
def Obligations.SignExtensionFollowsR8 : Prop :=
  (∀ n, n ∈ [5, 6, 9, 11] → ∀ f : BitVec n,
    (∀ k, k < n → (sext f).getLsbD k = f.getLsbD k) ∧
    (∀ k, n ≤ k → k < 16 → (sext f).getLsbD k = f.getLsbD (n - 1)) ∧
    (sext f).toInt = f.toInt) ∧
  ∀ b : Byte, (zext8 b).toNat = b.toNat

/-! ### The step -/

/-- R10: in HALTED nothing changes. In RUNNING the word at the pc is read (with the poll if the pc is
the status address), the pc is incremented, and the decoded instruction is executed. The result
reported is the run state after the step. -/
def Obligations.StepFetchesIncrementsExecutes : Prop :=
  (∀ s, s.run = .halted → step s = .next s) ∧
  (∀ s, s.run = .running → ∃ ir u, ReadsTo s.pc s ir u ∧ u.pc = s.pc + 1#16 ∧ u.psr = s.psr ∧
    RegsSameBut [] s u ∧ RunSame s u ∧ u.outLog = s.outLog ∧ step s = exec (decode ir) u) ∧
  (∀ s t, step s = .next t → stepResult (step s) = some t.run)

/-- A step runs the decoded instruction: where the word at the pc decodes to `i`, the step is `i` executed
in the state whose pc is one further (R10). Derived from R10 and R44, for a pc that is not the status address. -/
def Obligations.StepRunsInstructionAtPc : Prop :=
  ∀ s i, s.run = .running → s.pc ≠ statusAddr → decode (s.peek s.pc) = i →
    step s = exec i (s.setPc (s.pc + 1#16))

/-- A fetch from the status address executes the poll's result: RTI when a byte was taken, and a BR
that is never taken, so a no-operation, when none was (R49, R78). Derived. -/
def Obligations.FetchAtStatusRunsPollResult : Prop :=
  ∀ s, s.run = .running → s.pc = statusAddr →
    (∀ b rest, s.inQ = b :: rest → ∃ u, ReadsTo statusAddr s 0x8000#16 u ∧ u.pc = 0xFE01#16 ∧
      u.psr = s.psr ∧ RegsSameBut [] s u ∧ step s = exec .rti u) ∧
    (s.inQ = [] → ∃ t, step s = .next t ∧ ReadsTo statusAddr s 0x0000#16 t ∧ t.pc = 0xFE01#16 ∧
      t.psr = s.psr ∧ RegsSameBut [] s t ∧ RunSame s t ∧ t.outLog = s.outLog)

/-- HALTED is terminal: any number of steps from a halted state leave it as it is (R31, R32, R156, R167). Derived. -/
def Obligations.HaltedStateNeverChanges : Prop :=
  ∀ k s, s.run = .halted → Host.Core.run core k s = .next s

/-- A store is seen by every later fetch, that of the very next instruction too, with no fence: the
rule's own example is ST with offset 0 (R56). Derived, as the spec marks the rule. -/
def Obligations.StoreSeenByNextFetch : Prop :=
  (∀ s a v, a ≠ statusAddr → (fetch ((memWrite a v s).setPc a)).1 = v) ∧
  ∀ s sr, s.run = .running → s.pc ≠ statusAddr → s.pc + 1#16 ≠ statusAddr →
    decode (s.peek s.pc) = .st sr 0#9 →
    ∃ t, step s = .next t ∧ t.peek (s.pc + 1#16) = s.reg sr ∧
      step t = exec (decode (s.reg sr)) (t.setPc (s.pc + 2#16))

/-! ### Memory -/

/-- R44: a read of any address but the status address is pure; a read of the status address polls. -/
def Obligations.MemReadPollsOnlyStatus : Prop :=
  ∀ a s, ReadsTo a s (memRead a s).1 (memRead a s).2 ∧ (memRead a s).2.pc = s.pc ∧
    (memRead a s).2.psr = s.psr ∧ RegsSameBut [] s (memRead a s).2 ∧ RunSame s (memRead a s).2 ∧
    (memRead a s).2.outLog = s.outLog ∧ (a ≠ statusAddr → (memRead a s).2 = s)

/-- R45: a write stores the word at every address, the two device addresses too, and has no other effect. -/
def Obligations.MemWriteIsPlainStore : Prop :=
  ∀ a v s, StoredAt a v s (memWrite a v s)

/-- A read of any address but the status address repeats with the same word and changes nothing; a
repeated write leaves the same state (R51). Derived, as the spec marks the rule. -/
def Obligations.AccessesAreIdempotent : Prop :=
  (∀ a s, a ≠ statusAddr → memRead a (memRead a s).2 = memRead a s ∧ (memRead a s).2 = s) ∧
  ∀ a v s, memWrite a v (memWrite a v s) = memWrite a v s

/-- Two memories in canonical form that read the same at every address are the same data. The form is
the model's choice (log entry 1). Derived from R29. -/
def Obligations.CanonicalMemoryIsUnique : Prop :=
  ∀ m k : Memory, m.wf = true → k.wf = true → (∀ a : Word, m.read a.toNat = k.read a.toNat) → m = k

/-! ### Flags, privilege, frames over all instructions -/

/-- R26: `setcc` sets exactly one of N, Z, P by the value's sign and zero, and keeps bits 15 to 3. -/
def Obligations.SetccSetsExactlyOneFlag : Prop :=
  ∀ v s, FlagsFrom v s.psr (setcc v s).psr ∧ OneFlag (setcc v s).psr ∧ (setcc v s).pc = s.pc ∧
    RegsSameBut [] s (setcc v s) ∧ MemSameBut [] s (setcc v s) ∧ RunSame s (setcc v s) ∧
    HostSame s (setcc v s)

/-- R25: ADD, AND, NOT, LD, LDI, LDR, LEA and GETC set the flags from the destination's final value, a
permitted RTI replaces the status word, every other instruction and a refused RTI leave it alone,
and BR alone reads the flags: for any other instruction the flags before change nothing after but the status word. -/
def Obligations.FlagWritersAndReader : Prop :=
  (∀ i s t, exec i s = .next t →
    (∀ dr, flagRegister i = some dr → FlagsFrom (t.reg dr) s.psr t.psr) ∧
    (flagRegister i = none → i ≠ .rti → t.psr = s.psr) ∧
    (i = .rti → s.psr.getLsbD 15 = true → t.psr = s.psr) ∧
    (i = .rti → s.psr.getLsbD 15 = false → ∃ u w, ReadsTo (s.reg .r6) s w u ∧
      ReadsTo (s.reg .r6 + 1#16) u t.psr t)) ∧
  ∀ i s psr, (∀ n z p off, i ≠ .br n z p off) → psr.getLsbD 15 = s.psr.getLsbD 15 →
    mapNext (fun t => t.setPsr 0#16) (exec i (s.setPsr psr)) =
      mapNext (fun t => t.setPsr 0#16) (exec i s)

/-- R28: the privilege bit is consulted by RTI only, which is permitted when it is 0 and fatal when it
is 1. Any other instruction does the same in both modes and leaves the bit as it was. -/
def Obligations.PrivilegeConsultedOnlyByRti : Prop :=
  (∀ i s, i ≠ .rti → exec i (s.setPsr (s.psr ^^^ 0x8000#16)) =
    mapNext (fun t => t.setPsr (t.psr ^^^ 0x8000#16)) (exec i s)) ∧
  (∀ i s t, i ≠ .rti → exec i s = .next t → t.psr.getLsbD 15 = s.psr.getLsbD 15) ∧
  (∀ s, s.psr.getLsbD 15 = false → ∃ t, exec .rti s = .next t ∧ RunSame s t) ∧
  ∀ s, s.psr.getLsbD 15 = true →
    ∃ t, exec .rti s = .next t ∧ t.run = .halted ∧ t.psr.getLsbD 15 = true

/-- There is no way from user mode to supervisor mode: a run that starts in user mode stays in it, and
a step changes the mode only by an RTI in supervisor mode (R162). Derived, as the spec marks the rule. -/
def Obligations.UserModeIsForever : Prop :=
  (∀ k s t, s.psr.getLsbD 15 = true → Host.Core.run core k s = .next t →
    t.psr.getLsbD 15 = true) ∧
  ∀ s t, step s = .next t → t.psr.getLsbD 15 ≠ s.psr.getLsbD 15 →
    s.run = .running ∧ (fetch s).1.extractLsb' 12 4 = 0x8#4 ∧ s.psr.getLsbD 15 = false

/-- R23: the fetch adds 1 to the pc modulo 2^16, and then only BR, JMP, JSR, JSRR and a permitted RTI write it. -/
def Obligations.PcAdvanceOfEveryInstruction : Prop :=
  (∀ s, (fetch s).2.pc.toNat = (s.pc.toNat + 1) % 65536) ∧
  ∀ i s t, exec i s = .next t → t.pc = pcAfter i s

/-- Which registers an instruction writes: the one its DR names, register 7 by JSR, JSRR and TRAP,
register 6 by a permitted RTI, register 0 by the input traps, no other; and all eight registers are
storage (R20, R21). Derived. -/
def Obligations.RegistersWrittenByEachInstruction : Prop :=
  (∀ i s t, exec i s = .next t → RegsSameBut (writtenRegs i s) s t) ∧
  ∀ s r v, (s.setReg r v).reg r = v ∧ RegsSameBut [r] s (s.setReg r v)

/-- The output is only appended to and the input only taken from its head, over any run (R33). Derived. -/
def Obligations.OutputAppendsInputConsumesHead : Prop :=
  ∀ k s t, Host.Core.run core k s = .next t →
    (∃ bytes, t.outLog = s.outLog ++ bytes) ∧ ∃ taken, s.inQ = taken ++ t.inQ

/-- R31: the core halts in exactly three ways, each with its cause: the halt trap, the reserved opcode
and RTI in user mode. Nothing takes it back, and the host reads the run state, by `isHalted` and as
the result of a step. -/
def Obligations.HaltsInExactlyThreeWays : Prop :=
  (∀ s t, s.run = .running → s.haltCause = .none → step s = .next t →
    (t.run = .halted ↔ t.haltCause ≠ .none) ∧
    (t.haltCause = .trapHalt ↔ (fetch s).1 &&& 0xF0FF#16 = 0xF025#16) ∧
    (t.haltCause = .illegalOpcode ↔ (fetch s).1 &&& 0xF000#16 = 0xD000#16) ∧
    (t.haltCause = .privilegeViolation ↔
      (fetch s).1 &&& 0xF000#16 = 0x8000#16 ∧ s.psr.getLsbD 15 = true)) ∧
  (∀ s t, s.run = .halted → step s = .next t → t.run = .halted) ∧
  (∀ s, isHalted s = true ↔ s.run = .halted) ∧
  ∀ s t, step s = .next t → stepResult (step s) = some t.run

/-! ### Invariants and progress -/

/-- Every step keeps memory in canonical form, and a cause recorded exactly when halted (R29, R31, R32). Derived.
The canonical form is the model's choice (log entry 1). -/
def Obligations.StepKeepsInv : Prop :=
  ∀ s t, s.Inv → step s = .next t → t.Inv

/-- Every launch state whose memory is in canonical form meets the invariant, the model's reset state among
them, and every accepted load keeps it (R36, R175, R177). Derived. The canonical form in the invariant is
the model's choice (log entry 1), and so are the values of the reset state (log entries 2 and 3). -/
def Obligations.LaunchAndLoadMeetInv : Prop :=
  State.reset.Inv ∧
  (∀ pc psr regs mem inQ, mem.wf = true → (State.launch pc psr regs mem inQ).Inv) ∧
  ∀ bytes s t, s.Inv → loadObject bytes s = .loaded t → t.Inv

/-- Exactly one flag stays set over every step that is not a permitted RTI (R27). Derived, as the spec
marks the rule. -/
def Obligations.OneFlagKeptWithoutRti : Prop :=
  ∀ s t, OneFlag s.psr → step s = .next t →
    ¬(s.run = .running ∧ decode (fetch s).1 = .rti ∧ s.psr.getLsbD 15 = false) → OneFlag t.psr

/-- Every step has a next state, but for a GETC or IN at the pc with no byte waiting, which is held
(R150, R166). Derived. That a held step answers the fault `heldForInput` is the second reading of D25
(log entry 5); that a PUTS walk always ends rests on the model's finite input queue (log entry 6). -/
def Obligations.OnlyInputHoldsAStep : Prop :=
  ∀ s, (∃ t, step s = .next t) ∨
    (step s = .fault .heldForInput ∧ s.run = .running ∧ s.inQ = [] ∧
      ((s.peek s.pc) &&& 0xF0FF#16 = 0xF020#16 ∨ (s.peek s.pc) &&& 0xF0FF#16 = 0xF023#16))

/-- "What lifts the hold is the host appending a byte to the input queue": the step then completes and
takes that byte (R133, R166). Derived: that a held step leaves no state is the second reading of D25 (log entry 5). -/
def Obligations.AppendedInputLiftsHold : Prop :=
  ∀ s b bs, step s = .fault .heldForInput →
    ∃ t, step (hostAppend (b :: bs) s) = .next t ∧ t.inQ = bs ∧ t.reg .r0 = b.setWidth 16 ∧
      t.pc = s.pc + 1#16 ∧ t.reg .r7 = s.pc + 1#16

/-- A run under any schedule of appends (R176) loses, repeats and reorders no input: what was waiting and
what was appended is what was taken and what still waits; the output only grows, the invariant and user
mode are kept, and with nothing appended a held step stays held (R33, R133, R162). Derived: the
schedule's form is log entry 22, the canonical form in the invariant log entry 1; that each turn is
held or completes rests on log entries 5 and 6. -/
def Obligations.ScheduledRunDeliversInput : Prop :=
  (∀ (schedule : List (List Byte)) (s : State), ∃ t, runScheduled schedule s = .next t ∧
    (∃ taken, s.inQ ++ schedule.flatten = taken ++ t.inQ) ∧
    (∃ bytes, t.outLog = s.outLog ++ bytes) ∧ (s.Inv → t.Inv) ∧
    (s.psr.getLsbD 15 = true → t.psr.getLsbD 15 = true)) ∧
  (∀ k s, step s = .fault .heldForInput → runScheduled (List.replicate k []) s = .next s) ∧
  ∀ (k : Nat) (s t : State), Host.Core.run core k s = .next t → runScheduled (List.replicate k []) s = .next t

/-- A launch state has the pc, status word, registers, memory and input it is given, is RUNNING with
cause NONE and has put out nothing; loading the object files changes its memory only (R36, R176, R180). Derived. The reset state is one of them, with values the
model names: 0x3000, 0x0002 and zero registers (PRESUMED, log entry 2). -/
def Obligations.LaunchStateAsGiven : Prop :=
  (∀ pc psr regs mem inQ, ∃ s, State.launch pc psr regs mem inQ = s ∧ s.pc = pc ∧ s.psr = psr ∧
    (∀ r, s.reg r = regs.get r) ∧ (∀ a : Word, s.peek a = mem.read a.toNat) ∧ s.inQ = inQ ∧
    s.run = .running ∧ s.haltCause.code = 0#2 ∧ s.outLog = []) ∧
  (∀ l : Launch, ∃ m, l.start = State.launch l.pc l.psr l.regs m l.inQ) ∧
  State.reset = State.launch 0x3000#16 0x0002#16 (RegFile.all 0x0000#16) ⟨[]⟩ []

/-! ### Each instruction -/

/-- R100, BR: the pc moves by the sign-extended offset when a condition bit meets its flag, n with N, z with Z, p
with P. Nothing else changes. With no condition bit it never branches. -/
def Obligations.BranchTakenWhenFlagSelected : Prop :=
  (∀ ir : Word, ir &&& 0xF000#16 = 0x0000#16 → decode ir =
    .br (ir.getLsbD 11) (ir.getLsbD 10) (ir.getLsbD 9) (ir.extractLsb' 0 9)) ∧
  (∀ n z p off s, ∃ t, exec (.br n z p off) s = .next t ∧
    t.pc = (if (n && s.psr.getLsbD 2) || (z && s.psr.getLsbD 1) || (p && s.psr.getLsbD 0)
      then s.pc + sext off else s.pc) ∧
    RegsSameBut [] s t ∧ t.psr = s.psr ∧ MemSameBut [] s t ∧ RunSame s t ∧ HostSame s t) ∧
  ∀ off s, exec (.br false false false off) s = .next s

/-- R105, ADD register form: the sum modulo 2^16 into DR, and the flags. -/
def Obligations.AddRegisterForm : Prop :=
  (∀ ir : Word, ir &&& 0xF020#16 = 0x1000#16 → decode ir =
    .addReg (Reg.ofBits (ir.extractLsb' 9 3)) (Reg.ofBits (ir.extractLsb' 6 3))
      (Reg.ofBits (ir.extractLsb' 0 3))) ∧
  ∀ dr a b s, ∃ t, exec (.addReg dr a b) s = .next t ∧
    (t.reg dr).toNat = ((s.reg a).toNat + (s.reg b).toNat) % 65536 ∧ ResultIn dr (t.reg dr) s t

/-- R106, ADD immediate form: SR1 plus the signed immediate, modulo 2^16, into DR, and the flags. -/
def Obligations.AddImmediateForm : Prop :=
  (∀ ir : Word, ir &&& 0xF020#16 = 0x1020#16 → decode ir =
    .addImm (Reg.ofBits (ir.extractLsb' 9 3)) (Reg.ofBits (ir.extractLsb' 6 3)) (ir.extractLsb' 0 5)) ∧
  ∀ dr a (imm : BitVec 5) s, ∃ t, exec (.addImm dr a imm) s = .next t ∧
    t.reg dr = BitVec.ofInt 16 ((s.reg a).toInt + imm.toInt) ∧ ResultIn dr (t.reg dr) s t

/-- R107, AND register form: bit by bit into DR, and the flags. -/
def Obligations.AndRegisterForm : Prop :=
  (∀ ir : Word, ir &&& 0xF020#16 = 0x5000#16 → decode ir =
    .andReg (Reg.ofBits (ir.extractLsb' 9 3)) (Reg.ofBits (ir.extractLsb' 6 3))
      (Reg.ofBits (ir.extractLsb' 0 3))) ∧
  ∀ dr a b s, ∃ t, exec (.andReg dr a b) s = .next t ∧
    (∀ k, (t.reg dr).getLsbD k = ((s.reg a).getLsbD k && (s.reg b).getLsbD k)) ∧
    ResultIn dr (t.reg dr) s t

/-- R108, AND immediate form: the immediate is sign-extended, so its bit 4 masks bits 15 to 4. -/
def Obligations.AndImmediateForm : Prop :=
  (∀ ir : Word, ir &&& 0xF020#16 = 0x5020#16 → decode ir =
    .andImm (Reg.ofBits (ir.extractLsb' 9 3)) (Reg.ofBits (ir.extractLsb' 6 3)) (ir.extractLsb' 0 5)) ∧
  ∀ dr a (imm : BitVec 5) s, ∃ t, exec (.andImm dr a imm) s = .next t ∧
    (∀ k, (t.reg dr).getLsbD k = ((s.reg a).getLsbD k && imm.getLsbD (min k 4))) ∧
    ResultIn dr (t.reg dr) s t

/-- R109, NOT: every one of the 16 bits inverted, into DR, and the flags. -/
def Obligations.NotInvertsEveryBit : Prop :=
  (∀ ir : Word, ir &&& 0xF000#16 = 0x9000#16 → decode ir =
    .not (Reg.ofBits (ir.extractLsb' 9 3)) (Reg.ofBits (ir.extractLsb' 6 3))) ∧
  ∀ dr a s, ∃ t, exec (.not dr a) s = .next t ∧
    (∀ k, k < 16 → (t.reg dr).getLsbD k = !(s.reg a).getLsbD k) ∧ ResultIn dr (t.reg dr) s t

/-- R116, LD: the word at pc plus offset into DR, and the flags. A read of the status address polls. -/
def Obligations.LdLoadsPcRelative : Prop :=
  (∀ ir : Word, ir &&& 0xF000#16 = 0x2000#16 → decode ir =
    .ld (Reg.ofBits (ir.extractLsb' 9 3)) (ir.extractLsb' 0 9)) ∧
  ∀ dr off s, ∃ t v, exec (.ld dr off) s = .next t ∧ ReadsTo (s.pc + sext off) s v t ∧ LoadedIn dr v s t

/-- R117, ST: SR at pc plus offset; no flag changes. The address is the meaning's own `pcRelative off s`. -/
def Obligations.StStoresPcRelative : Prop :=
  (∀ ir : Word, ir &&& 0xF000#16 = 0x3000#16 → decode ir =
    .st (Reg.ofBits (ir.extractLsb' 9 3)) (ir.extractLsb' 0 9)) ∧
  ∀ sr off s, pcRelative off s = s.pc + sext off ∧
    ∃ t, exec (.st sr off) s = .next t ∧ StoredAt (pcRelative off s) (s.reg sr) s t

/-- R118, LDI: two reads in order, the pointer and then the data; either may poll. -/
def Obligations.LdiLoadsThroughPointer : Prop :=
  (∀ ir : Word, ir &&& 0xF000#16 = 0xA000#16 → decode ir =
    .ldi (Reg.ofBits (ir.extractLsb' 9 3)) (ir.extractLsb' 0 9)) ∧
  ∀ dr off s, ∃ t u ea v, exec (.ldi dr off) s = .next t ∧ ReadsTo (s.pc + sext off) s ea u ∧
    ReadsTo ea u v t ∧ LoadedIn dr v s t

/-- R119, STI: one read, the pointer, which may poll, and then SR stored at the address it holds. The
state after the read is `u`, and the store is the only change after it. -/
def Obligations.StiStoresThroughPointer : Prop :=
  (∀ ir : Word, ir &&& 0xF000#16 = 0xB000#16 → decode ir =
    .sti (Reg.ofBits (ir.extractLsb' 9 3)) (ir.extractLsb' 0 9)) ∧
  ∀ sr off s, ∃ t u ea, exec (.sti sr off) s = .next t ∧ ReadsTo (s.pc + sext off) s ea u ∧
    ea = (memRead (pcRelative off s) s).1 ∧ t.peek ea = s.reg sr ∧ MemSameBut [ea] u t ∧
    RegsSameBut [] s t ∧ t.psr = s.psr ∧ t.pc = s.pc ∧ RunSame s t ∧ t.inQ = u.inQ ∧
    t.outLog = s.outLog

/-- R120, LDR: the word at BaseR plus offset into DR, with the old base, and the flags. -/
def Obligations.LdrLoadsBasePlusOffset : Prop :=
  (∀ ir : Word, ir &&& 0xF000#16 = 0x6000#16 → decode ir =
    .ldr (Reg.ofBits (ir.extractLsb' 9 3)) (Reg.ofBits (ir.extractLsb' 6 3)) (ir.extractLsb' 0 6)) ∧
  ∀ dr base off s, ∃ t v, exec (.ldr dr base off) s = .next t ∧
    ReadsTo (s.reg base + sext off) s v t ∧ LoadedIn dr v s t

/-- R121, STR: SR at BaseR plus offset; no flag changes. The address is the meaning's own `basePlus base off s`. -/
def Obligations.StrStoresBasePlusOffset : Prop :=
  (∀ ir : Word, ir &&& 0xF000#16 = 0x7000#16 → decode ir =
    .str (Reg.ofBits (ir.extractLsb' 9 3)) (Reg.ofBits (ir.extractLsb' 6 3)) (ir.extractLsb' 0 6)) ∧
  ∀ sr base off s, basePlus base off s = s.reg base + sext off ∧
    ∃ t, exec (.str sr base off) s = .next t ∧ StoredAt (basePlus base off s) (s.reg sr) s t

/-- R122, LEA: pc plus offset into DR with no memory access, not even at the status address, and the flags. -/
def Obligations.LeaLoadsAddressAndFlags : Prop :=
  (∀ ir : Word, ir &&& 0xF000#16 = 0xE000#16 → decode ir =
    .lea (Reg.ofBits (ir.extractLsb' 9 3)) (ir.extractLsb' 0 9)) ∧
  ∀ dr off s, ∃ t, exec (.lea dr off) s = .next t ∧ ResultIn dr (s.pc + sext off) s t

/-- R125 and R126, JMP and RET: the pc becomes the base register, register 7 for RET. -/
def Obligations.JmpAndRetLoadPc : Prop :=
  (∀ ir : Word, ir &&& 0xF000#16 = 0xC000#16 → decode ir = .jmp (Reg.ofBits (ir.extractLsb' 6 3))) ∧
  (∀ ir : Word, ir &&& 0xF1C0#16 = 0xC1C0#16 → decode ir = .jmp .r7) ∧
  ∀ base s, ∃ t, exec (.jmp base) s = .next t ∧ JumpedTo (s.reg base) [] s t

/-- R127, JSR: the incremented pc into register 7, and the pc moves by the sign-extended offset. -/
def Obligations.JsrLinksAndJumps : Prop :=
  (∀ ir : Word, ir &&& 0xF800#16 = 0x4800#16 → decode ir = .jsr (ir.extractLsb' 0 11)) ∧
  ∀ off s, ∃ t, exec (.jsr off) s = .next t ∧ t.reg .r7 = s.pc ∧ JumpedTo (s.pc + sext off) [.r7] s t

/-- R128, JSRR: the link is written first and the base read after it, so JSRR R7 goes to the link
itself (D19); every other base register gives its value. -/
def Obligations.JsrrLinksThenReadsBase : Prop :=
  (∀ ir : Word, ir &&& 0xF800#16 = 0x4000#16 → decode ir = .jsrr (Reg.ofBits (ir.extractLsb' 6 3))) ∧
  ∀ base s, ∃ t, exec (.jsrr base) s = .next t ∧ t.reg .r7 = s.pc ∧
    JumpedTo (if base = .r7 then s.pc else s.reg base) [.r7] s t

/-- R130, RTI. User mode: the core halts with cause PRIVILEGE_VIOLATION and nothing else changes.
Supervisor mode: the pc and then the whole status word are popped through register 6, which grows by
2; the pops are reads and may poll (D17, D18). -/
def Obligations.RtiPopsOrHalts : Prop :=
  (∀ ir : Word, ir &&& 0xF000#16 = 0x8000#16 → decode ir = .rti) ∧
  (∀ s, s.psr.getLsbD 15 = true →
    ∃ t, exec .rti s = .next t ∧ HaltedBy .privilegeViolation s t) ∧
  ∀ s, s.psr.getLsbD 15 = false →
    ∃ t u, exec .rti s = .next t ∧ ReadsTo (s.reg .r6) s t.pc u ∧
      ReadsTo (s.reg .r6 + 1#16) u t.psr t ∧ t.reg .r6 = s.reg .r6 + 2#16 ∧
      RegsSameBut [.r6] s t ∧ RunSame s t ∧ t.outLog = s.outLog

/-- R132, GETC: the head byte of the input, zero-extended, into register 0, the flags from it, the link
in register 7, no echo. -/
def Obligations.GetcReadsByteAndSetsFlags : Prop :=
  (∀ ir : Word, ir &&& 0xF0FF#16 = 0xF020#16 → decode ir = .trapGetc) ∧
  (∀ s c rest, s.inQ = c :: rest → ∃ t, exec .trapGetc s = .next t ∧ t.inQ = rest ∧
    t.reg .r0 = c.setWidth 16 ∧ t.reg .r7 = s.pc ∧ RegsSameBut [.r0, .r7] s t ∧
    FlagsFrom (c.setWidth 16) s.psr t.psr ∧ t.pc = s.pc ∧ MemSameBut [] s t ∧ RunSame s t ∧
    t.outLog = s.outLog)

/-- R134, OUT: the low byte of register 0 appended to the output, and the link. -/
def Obligations.OutEmitsLowByte : Prop :=
  (∀ ir : Word, ir &&& 0xF0FF#16 = 0xF021#16 → decode ir = .trapOut) ∧
  ∀ s, ∃ t, exec .trapOut s = .next t ∧ t.outLog = s.outLog ++ [(s.reg .r0).extractLsb' 0 8] ∧
    t.reg .r7 = s.pc ∧ RegsSameBut [.r7] s t ∧ TrapKeeps s t ∧ RunSame s t ∧ t.inQ = s.inQ

/-- R135, PUTS: the link, and then the rule's loop from register 0. The loop, of which the second
clause is the defining equation, reads a word, stops at a whole zero word, else emits its low byte
and goes on at the next address modulo 2^16. Register 0 and the flags are unchanged. Derived: that PUTS
completes in every state rests on the model's finite input queue (log entry 6), where R141 lets a walk
with an endless supply of input go on for ever. -/
def Obligations.PutsFollowsItsLoop : Prop :=
  (∀ ir : Word, ir &&& 0xF0FF#16 = 0xF022#16 → decode ir = .trapPuts) ∧
  (∀ a s, putsWalk a s = if (memRead a s).1 = 0x0000#16 then .next (memRead a s).2
    else putsWalk (a + 1#16) (outBytes [(memRead a s).1.extractLsb' 0 8] (memRead a s).2)) ∧
  ∀ s, ∃ t, exec .trapPuts s = .next t ∧ putsWalk (s.reg .r0) (s.setReg .r7 s.pc) = .next t ∧
    t.reg .r7 = s.pc ∧ RegsSameBut [.r7] s t ∧ t.psr = s.psr ∧ t.pc = s.pc ∧
    MemSameBut [statusAddr, dataAddr] s t ∧ RunSame s t

/-- PUTS of a zero-terminated string that does not cross the status address puts out the low byte of
each of its words, in order, and changes nothing but register 7 (R135). Derived. -/
def Obligations.PutsEmitsTerminatedString : Prop :=
  ∀ (s : State) (ws : List Word), ws.length < 65536 →
    (∀ k w, ws[k]? = some w → w ≠ 0#16 ∧ s.peek (s.reg .r0 + BitVec.ofNat 16 k) = w) →
    s.peek (s.reg .r0 + BitVec.ofNat 16 ws.length) = 0#16 →
    (∀ k, k ≤ ws.length → s.reg .r0 + BitVec.ofNat 16 k ≠ statusAddr) →
    ∃ t, exec .trapPuts s = .next t ∧ t.outLog = s.outLog ++ ws.map (fun w => w.extractLsb' 0 8) ∧
      t.reg .r7 = s.pc ∧ RegsSameBut [.r7] s t ∧ TrapKeeps s t ∧ RunSame s t ∧ t.inQ = s.inQ

/-- R136, IN: the link, the prompt (empty, D13), the head byte of the input, its echo, the byte
zero-extended in register 0, the flags unchanged (D13). -/
def Obligations.InReadsAndEchoes : Prop :=
  (∀ ir : Word, ir &&& 0xF0FF#16 = 0xF023#16 → decode ir = .trapIn) ∧
  inPrompt = [] ∧
  (∀ s c rest, s.inQ = c :: rest → ∃ t, exec .trapIn s = .next t ∧ t.inQ = rest ∧
    t.outLog = s.outLog ++ inPrompt ++ [c] ∧ t.reg .r0 = c.setWidth 16 ∧ t.reg .r7 = s.pc ∧
    RegsSameBut [.r0, .r7] s t ∧ TrapKeeps s t ∧ RunSame s t)

/-- GETC and IN with no byte waiting are held: the step has no end state (R133, R166). Derived: the
answer is the second reading of D25, a step that is not enabled (log entry 5). -/
def Obligations.InputTrapsHeldWithoutByte : Prop :=
  ∀ s, s.inQ = [] → exec .trapGetc s = .fault .heldForInput ∧ exec .trapIn s = .fault .heldForInput

/-- R137, PUTSP: the link, and then the rule's loop from register 0: stop at a zero low byte, else emit
the low byte, then the high byte if it is not zero, and go on at the next address modulo 2^16.
Register 0 and the flags are unchanged. Derived: that the walk always ends is R141's sentence, which the
spec marks as derived. -/
def Obligations.PutspFollowsItsLoop : Prop :=
  (∀ ir : Word, ir &&& 0xF0FF#16 = 0xF024#16 → decode ir = .trapPutsp) ∧
  (∀ a s, putspWalk a s =
    if (memRead a s).1.extractLsb' 0 8 = 0x00#8 then .next (memRead a s).2
    else putspWalk (a + 1#16) (outBytes
      ((memRead a s).1.extractLsb' 0 8 ::
        if (memRead a s).1.extractLsb' 8 8 = 0x00#8 then [] else [(memRead a s).1.extractLsb' 8 8])
      (memRead a s).2)) ∧
  ∀ s, ∃ t, exec .trapPutsp s = .next t ∧ putspWalk (s.reg .r0) (s.setReg .r7 s.pc) = .next t ∧
    t.reg .r7 = s.pc ∧ RegsSameBut [.r7] s t ∧ t.psr = s.psr ∧ t.pc = s.pc ∧
    MemSameBut [statusAddr, dataAddr] s t ∧ RunSame s t

/-- A PUTSP walk always ends within 65,536 words (R141, marked derived by the spec), and a PUTS walk
ends because the model's input queue is finite (log entry 6). Derived. -/
def Obligations.StringWalksEnd : Prop :=
  (∀ a s, ∃ t, stringWalk putspStop putspBytes 65536 a s = .next t) ∧
  ∀ a s, ∃ t, putsWalk a s = .next t

/-- R138, HALT: the link, the halt message appended to the output whatever its bytes (a free value, log
entry 7), and the core halted with cause TRAP_HALT. -/
def Obligations.HaltTrapEndsRun : Prop :=
  (∀ ir : Word, ir &&& 0xF0FF#16 = 0xF025#16 → decode ir = .trapHalt) ∧
  ∀ s, ∃ t, exec .trapHalt s = .next t ∧ t.run = .halted ∧ t.haltCause = .trapHalt ∧
    t.outLog = s.outLog ++ haltMessage ∧ t.reg .r7 = s.pc ∧ RegsSameBut [.r7] s t ∧ TrapKeeps s t ∧
    t.inQ = s.inQ

/-- R139, TRAP with any other vector: nothing but the link. -/
def Obligations.UnrecognisedTrapOnlyLinks : Prop :=
  (∀ ir : Word, ir &&& 0xF000#16 = 0xF000#16 →
    ((ir.extractLsb' 0 8).toNat < 0x20 ∨ 0x25 < (ir.extractLsb' 0 8).toNat) →
    decode ir = .trapUnrecognised (ir.extractLsb' 0 8)) ∧
  ∀ v s, ∃ t, exec (.trapUnrecognised v) s = .next t ∧ t.reg .r7 = s.pc ∧ RegsSameBut [.r7] s t ∧
    TrapKeeps s t ∧ RunSame s t ∧ HostSame s t

/-- R140, the reserved opcode: the core halts with cause ILLEGAL_OPCODE (code 2) and nothing else changes. -/
def Obligations.ReservedOpcodeHalts : Prop :=
  (∀ ir : Word, ir &&& 0xF000#16 = 0xD000#16 → decode ir = .reserved) ∧
  ∀ s, ∃ t, exec .reserved s = .next t ∧ HaltedBy .illegalOpcode s t ∧ t.haltCause.code = 2#2

/-! ### The loader -/

/-- R177: an object file whose words fit puts them at rising addresses from its origin, leaves every
other cell alone and changes nothing but memory. -/
def Obligations.LoaderPlacesWords : Prop :=
  ∀ (origin : Word) (ws : List Word) (s : State), origin.toNat + ws.length ≤ 65536 →
    ∃ t, loadObject (objectBytes origin ws) s = .loaded t ∧
      (∀ k w, ws[k]? = some w → t.peek (BitVec.ofNat 16 (origin.toNat + k)) = w) ∧
      (∀ a : Word, a.toNat < origin.toNat ∨ origin.toNat + ws.length ≤ a.toNat → t.peek a = s.peek a) ∧
      t = { s with mem := t.mem }

/-- R178: a file is rejected exactly when it has an odd number of bytes, fewer than 2, or would write past the
end of memory, and a rejected file leaves the engine as it was. -/
def Obligations.LoaderRejectsBadFiles : Prop :=
  ∀ (bytes : List Byte) (s : State),
    ((∃ e, loadObject bytes s = .rejected e) ↔
      (bytes.length % 2 = 1 ∨ bytes.length < 2 ∨
        65536 < (bytes.getD 0 0#8).toNat + 256 * (bytes.getD 1 0#8).toNat + (bytes.length - 2) / 2)) ∧
    ∀ e, loadObject bytes s = .rejected e → (loadObject bytes s).orKeep s = s
end

