-- ==== Sys2Proof/Laws/Decode.lean ====
section
/-! SUPPORT. The register fields, read and written (spec/30_encoding.md R74, R88). -/

namespace Sys2Proof

@[simp] theorem Reg.ofBits_toBits (r : Reg) : Reg.ofBits r.toBits = r := by
  cases r <;> rfl

@[simp] theorem Reg.toBits_ofBits (b : BitVec 3) : (Reg.ofBits b).toBits = b := by
  revert b
  decide

/-! Fields read back from a word in which fields were placed (R73). -/

/-- The field placed at bit `low` is read back there. -/
theorem extract_place_same {n low : Nat} (f : BitVec n) (h : low + n ≤ 16) :
    (place low f).extractLsb' low n = f := by
  refine BitVec.eq_of_getLsbD_eq fun i hi => ?_
  have h1 : low + i < 16 := by omega
  have h2 : low + i - low = i := by omega
  simp [place, hi, h1, h2]

/-- A field placed below the one read leaves it 0. -/
theorem extract_place_below {n low start m : Nat} (f : BitVec n) (h : low + n ≤ start) :
    (place low f).extractLsb' start m = 0#m := by
  refine BitVec.eq_of_getLsbD_eq fun i hi => ?_
  have h1 : n ≤ start + i - low := by omega
  simp [place, hi, BitVec.getLsbD_of_ge f _ h1]

/-- A field placed above the one read leaves it 0. -/
theorem extract_place_above {n low start m : Nat} (f : BitVec n) (h : start + m ≤ low) :
    (place low f).extractLsb' start m = 0#m := by
  refine BitVec.eq_of_getLsbD_eq fun i hi => ?_
  have h1 : start + i < low := by omega
  simp [place, hi, h1]

theorem opcodeField_or (a b : Word) : opcodeField (a ||| b) = opcodeField a ||| opcodeField b :=
  BitVec.extractLsb'_or

theorem opcodeField_place_top (k : BitVec 4) : opcodeField (place 12 k) = k :=
  extract_place_same k (by decide)

theorem opcodeField_place_low {n low : Nat} (f : BitVec n) (h : low + n ≤ 12) :
    opcodeField (place low f) = 0#4 :=
  extract_place_below f h

/-! Fields of a word that matches a row of the opcode table (R75). -/

theorem opcodeField_of_match {ir mask pattern : Word} (h : ir &&& mask = pattern)
    (hm : opcodeField mask = 0xF#4) : opcodeField ir = opcodeField pattern := by
  unfold opcodeField at hm
  have key : opcodeField (ir &&& mask) = opcodeField ir := by
    unfold opcodeField
    rw [BitVec.extractLsb'_and, hm]
    exact BitVec.and_allOnes
  rw [← key, h]

theorem bit_of_match {ir mask pattern : Word} (h : ir &&& mask = pattern) {k : Nat}
    (hm : mask.getLsbD k = true) : ir.getLsbD k = pattern.getLsbD k := by
  rw [← h, BitVec.getLsbD_and, hm, Bool.and_true]

theorem vector_of_match {ir mask pattern : Word} (h : ir &&& mask = pattern)
    (hm : trapvect8Field mask = 0xFF#8) : trapvect8Field ir = trapvect8Field pattern := by
  unfold trapvect8Field at hm
  have key : trapvect8Field (ir &&& mask) = trapvect8Field ir := by
    unfold trapvect8Field
    rw [BitVec.extractLsb'_and, hm]
    exact BitVec.and_allOnes
  rw [← key, h]

/-! The decoder, opcode by opcode (R75). -/

theorem decode_br {ir : Word} (h : opcodeField ir = 0#4) :
    decode ir =
      .br (ir.getLsbD 11) (ir.getLsbD 10) (ir.getLsbD 9) (offset9Field ir) := by
  simp only [decode, h]
  rfl

theorem decode_add {ir : Word} (h : opcodeField ir = 1#4) :
    decode ir =
      if ir.getLsbD 5 then .addImm (regField9 ir) (regField6 ir) (imm5Field ir)
      else .addReg (regField9 ir) (regField6 ir) (regField0 ir) := by
  simp only [decode, h]
  rfl

theorem decode_ld {ir : Word} (h : opcodeField ir = 2#4) :
    decode ir =
      .ld (regField9 ir) (offset9Field ir) := by
  simp only [decode, h]
  rfl

theorem decode_st {ir : Word} (h : opcodeField ir = 3#4) :
    decode ir =
      .st (regField9 ir) (offset9Field ir) := by
  simp only [decode, h]
  rfl

theorem decode_jsr {ir : Word} (h : opcodeField ir = 4#4) :
    decode ir =
      if ir.getLsbD 11 then .jsr (offset11Field ir) else .jsrr (regField6 ir) := by
  simp only [decode, h]
  rfl

theorem decode_and {ir : Word} (h : opcodeField ir = 5#4) :
    decode ir =
      if ir.getLsbD 5 then .andImm (regField9 ir) (regField6 ir) (imm5Field ir)
      else .andReg (regField9 ir) (regField6 ir) (regField0 ir) := by
  simp only [decode, h]
  rfl

theorem decode_ldr {ir : Word} (h : opcodeField ir = 6#4) :
    decode ir =
      .ldr (regField9 ir) (regField6 ir) (offset6Field ir) := by
  simp only [decode, h]
  rfl

theorem decode_str {ir : Word} (h : opcodeField ir = 7#4) :
    decode ir =
      .str (regField9 ir) (regField6 ir) (offset6Field ir) := by
  simp only [decode, h]
  rfl

theorem decode_rti {ir : Word} (h : opcodeField ir = 8#4) :
    decode ir =
      .rti := by
  simp only [decode, h]
  rfl

theorem decode_not {ir : Word} (h : opcodeField ir = 9#4) :
    decode ir =
      .not (regField9 ir) (regField6 ir) := by
  simp only [decode, h]
  rfl

theorem decode_ldi {ir : Word} (h : opcodeField ir = 10#4) :
    decode ir =
      .ldi (regField9 ir) (offset9Field ir) := by
  simp only [decode, h]
  rfl

theorem decode_sti {ir : Word} (h : opcodeField ir = 11#4) :
    decode ir =
      .sti (regField9 ir) (offset9Field ir) := by
  simp only [decode, h]
  rfl

theorem decode_jmp {ir : Word} (h : opcodeField ir = 12#4) :
    decode ir =
      .jmp (regField6 ir) := by
  simp only [decode, h]
  rfl

theorem decode_reserved {ir : Word} (h : opcodeField ir = 13#4) :
    decode ir =
      .reserved := by
  simp only [decode, h]
  rfl

theorem decode_lea {ir : Word} (h : opcodeField ir = 14#4) :
    decode ir =
      .lea (regField9 ir) (offset9Field ir) := by
  simp only [decode, h]
  rfl

theorem decode_trap {ir : Word} (h : opcodeField ir = 15#4) :
    decode ir =
      decodeTrap (trapvect8Field ir) := by
  simp only [decode, h]
  rfl

end Sys2Proof
end

