-- ==== Sys2Proof/Laws/State.lean ====
section
/-! SUPPORT. One lemma per field per update of the state, and registers and cells read after an
update, so that no proof unfolds a record update. -/

namespace Sys2Proof.Machine

/-! ### The register file -/

@[simp] theorem RegFile.get_set_same (f : RegFile) (r : Reg) (v : Word) : (f.set r v).get r = v := by
  cases r <;> rfl

theorem RegFile.get_set_ne (f : RegFile) {r q : Reg} (v : Word) (h : q ≠ r) :
    (f.set r v).get q = f.get q := by
  cases r <;> cases q <;> first | rfl | exact absurd rfl h

theorem RegFile.get_set (f : RegFile) (r q : Reg) (v : Word) :
    (f.set r v).get q = if q = r then v else f.get q := by
  split
  · next h => rw [h, get_set_same]
  · next h => exact get_set_ne f v h

/-- Two register files that agree on every index are equal. -/
theorem RegFile.ext_get {f g : RegFile} (h : ∀ r, f.get r = g.get r) : f = g := by
  cases f
  cases g
  have h0 := h .r0
  have h1 := h .r1
  have h2 := h .r2
  have h3 := h .r3
  have h4 := h .r4
  have h5 := h .r5
  have h6 := h .r6
  have h7 := h .r7
  simp only [RegFile.get] at h0 h1 h2 h3 h4 h5 h6 h7
  simp [*]

@[simp] theorem RegFile.get_all (v : Word) (r : Reg) : (RegFile.all v).get r = v := by
  cases r <;> rfl

@[simp] theorem State.regs_get (s : State) (r : Reg) : s.regs.get r = s.reg r := rfl

@[simp] theorem State.mem_read (s : State) (a : Word) : s.mem.read a.toNat = s.peek a := rfl

/-! ### `setReg` -/

@[simp] theorem State.setReg_regs (s : State) (r : Reg) (v : Word) : (s.setReg r v).regs = s.regs.set r v := rfl
@[simp] theorem State.setReg_pc (s : State) (r : Reg) (v : Word) : (s.setReg r v).pc = s.pc := rfl
@[simp] theorem State.setReg_psr (s : State) (r : Reg) (v : Word) : (s.setReg r v).psr = s.psr := rfl
@[simp] theorem State.setReg_mem (s : State) (r : Reg) (v : Word) : (s.setReg r v).mem = s.mem := rfl
@[simp] theorem State.setReg_run (s : State) (r : Reg) (v : Word) : (s.setReg r v).run = s.run := rfl
@[simp] theorem State.setReg_haltCause (s : State) (r : Reg) (v : Word) : (s.setReg r v).haltCause = s.haltCause := rfl
@[simp] theorem State.setReg_inQ (s : State) (r : Reg) (v : Word) : (s.setReg r v).inQ = s.inQ := rfl
@[simp] theorem State.setReg_outLog (s : State) (r : Reg) (v : Word) : (s.setReg r v).outLog = s.outLog := rfl
@[simp] theorem State.setReg_peek (s : State) (r : Reg) (v : Word) (a : Word) : (s.setReg r v).peek a = s.peek a := rfl

/-! ### `setPc` -/

@[simp] theorem State.setPc_regs (s : State) (v : Word) : (s.setPc v).regs = s.regs := rfl
@[simp] theorem State.setPc_pc (s : State) (v : Word) : (s.setPc v).pc = v := rfl
@[simp] theorem State.setPc_psr (s : State) (v : Word) : (s.setPc v).psr = s.psr := rfl
@[simp] theorem State.setPc_mem (s : State) (v : Word) : (s.setPc v).mem = s.mem := rfl
@[simp] theorem State.setPc_run (s : State) (v : Word) : (s.setPc v).run = s.run := rfl
@[simp] theorem State.setPc_haltCause (s : State) (v : Word) : (s.setPc v).haltCause = s.haltCause := rfl
@[simp] theorem State.setPc_inQ (s : State) (v : Word) : (s.setPc v).inQ = s.inQ := rfl
@[simp] theorem State.setPc_outLog (s : State) (v : Word) : (s.setPc v).outLog = s.outLog := rfl
@[simp] theorem State.setPc_reg (s : State) (v : Word) (q : Reg) : (s.setPc v).reg q = s.reg q := rfl
@[simp] theorem State.setPc_peek (s : State) (v : Word) (a : Word) : (s.setPc v).peek a = s.peek a := rfl

/-! ### `setPsr` -/

@[simp] theorem State.setPsr_regs (s : State) (v : Word) : (s.setPsr v).regs = s.regs := rfl
@[simp] theorem State.setPsr_pc (s : State) (v : Word) : (s.setPsr v).pc = s.pc := rfl
@[simp] theorem State.setPsr_psr (s : State) (v : Word) : (s.setPsr v).psr = v := rfl
@[simp] theorem State.setPsr_mem (s : State) (v : Word) : (s.setPsr v).mem = s.mem := rfl
@[simp] theorem State.setPsr_run (s : State) (v : Word) : (s.setPsr v).run = s.run := rfl
@[simp] theorem State.setPsr_haltCause (s : State) (v : Word) : (s.setPsr v).haltCause = s.haltCause := rfl
@[simp] theorem State.setPsr_inQ (s : State) (v : Word) : (s.setPsr v).inQ = s.inQ := rfl
@[simp] theorem State.setPsr_outLog (s : State) (v : Word) : (s.setPsr v).outLog = s.outLog := rfl
@[simp] theorem State.setPsr_reg (s : State) (v : Word) (q : Reg) : (s.setPsr v).reg q = s.reg q := rfl
@[simp] theorem State.setPsr_peek (s : State) (v : Word) (a : Word) : (s.setPsr v).peek a = s.peek a := rfl

/-! ### `memWrite` -/

@[simp] theorem memWrite_regs (s : State) (a v : Word) : (memWrite a v s).regs = s.regs := rfl
@[simp] theorem memWrite_pc (s : State) (a v : Word) : (memWrite a v s).pc = s.pc := rfl
@[simp] theorem memWrite_psr (s : State) (a v : Word) : (memWrite a v s).psr = s.psr := rfl
@[simp] theorem memWrite_mem (s : State) (a v : Word) : (memWrite a v s).mem = s.mem.write a.toNat v := rfl
@[simp] theorem memWrite_run (s : State) (a v : Word) : (memWrite a v s).run = s.run := rfl
@[simp] theorem memWrite_haltCause (s : State) (a v : Word) : (memWrite a v s).haltCause = s.haltCause := rfl
@[simp] theorem memWrite_inQ (s : State) (a v : Word) : (memWrite a v s).inQ = s.inQ := rfl
@[simp] theorem memWrite_outLog (s : State) (a v : Word) : (memWrite a v s).outLog = s.outLog := rfl
@[simp] theorem memWrite_reg (s : State) (a v : Word) (q : Reg) : (memWrite a v s).reg q = s.reg q := rfl

/-! ### `outBytes` -/

@[simp] theorem outBytes_regs (s : State) (bs : List Byte) : (outBytes bs s).regs = s.regs := rfl
@[simp] theorem outBytes_pc (s : State) (bs : List Byte) : (outBytes bs s).pc = s.pc := rfl
@[simp] theorem outBytes_psr (s : State) (bs : List Byte) : (outBytes bs s).psr = s.psr := rfl
@[simp] theorem outBytes_mem (s : State) (bs : List Byte) : (outBytes bs s).mem = s.mem := rfl
@[simp] theorem outBytes_run (s : State) (bs : List Byte) : (outBytes bs s).run = s.run := rfl
@[simp] theorem outBytes_haltCause (s : State) (bs : List Byte) : (outBytes bs s).haltCause = s.haltCause := rfl
@[simp] theorem outBytes_inQ (s : State) (bs : List Byte) : (outBytes bs s).inQ = s.inQ := rfl
@[simp] theorem outBytes_outLog (s : State) (bs : List Byte) : (outBytes bs s).outLog = s.outLog ++ bs := rfl
@[simp] theorem outBytes_reg (s : State) (bs : List Byte) (q : Reg) : (outBytes bs s).reg q = s.reg q := rfl
@[simp] theorem outBytes_peek (s : State) (bs : List Byte) (a : Word) : (outBytes bs s).peek a = s.peek a := rfl

/-! ### `halt` -/

@[simp] theorem halt_regs (s : State) (c : HaltCause) : (halt c s).regs = s.regs := rfl
@[simp] theorem halt_pc (s : State) (c : HaltCause) : (halt c s).pc = s.pc := rfl
@[simp] theorem halt_psr (s : State) (c : HaltCause) : (halt c s).psr = s.psr := rfl
@[simp] theorem halt_mem (s : State) (c : HaltCause) : (halt c s).mem = s.mem := rfl
@[simp] theorem halt_run (s : State) (c : HaltCause) : (halt c s).run = .halted := rfl
@[simp] theorem halt_haltCause (s : State) (c : HaltCause) : (halt c s).haltCause = c := rfl
@[simp] theorem halt_inQ (s : State) (c : HaltCause) : (halt c s).inQ = s.inQ := rfl
@[simp] theorem halt_outLog (s : State) (c : HaltCause) : (halt c s).outLog = s.outLog := rfl
@[simp] theorem halt_reg (s : State) (c : HaltCause) (q : Reg) : (halt c s).reg q = s.reg q := rfl
@[simp] theorem halt_peek (s : State) (c : HaltCause) (a : Word) : (halt c s).peek a = s.peek a := rfl

/-! ### `raiseFatal` -/

@[simp] theorem raiseFatal_regs (s : State) (e : FatalCondition) : (raiseFatal e s).regs = s.regs := rfl
@[simp] theorem raiseFatal_pc (s : State) (e : FatalCondition) : (raiseFatal e s).pc = s.pc := rfl
@[simp] theorem raiseFatal_psr (s : State) (e : FatalCondition) : (raiseFatal e s).psr = s.psr := rfl
@[simp] theorem raiseFatal_mem (s : State) (e : FatalCondition) : (raiseFatal e s).mem = s.mem := rfl
@[simp] theorem raiseFatal_run (s : State) (e : FatalCondition) : (raiseFatal e s).run = .halted := rfl
@[simp] theorem raiseFatal_haltCause (s : State) (e : FatalCondition) : (raiseFatal e s).haltCause = e.cause := rfl
@[simp] theorem raiseFatal_inQ (s : State) (e : FatalCondition) : (raiseFatal e s).inQ = s.inQ := rfl
@[simp] theorem raiseFatal_outLog (s : State) (e : FatalCondition) : (raiseFatal e s).outLog = s.outLog := rfl
@[simp] theorem raiseFatal_reg (s : State) (e : FatalCondition) (q : Reg) : (raiseFatal e s).reg q = s.reg q := rfl
@[simp] theorem raiseFatal_peek (s : State) (e : FatalCondition) (a : Word) : (raiseFatal e s).peek a = s.peek a := rfl

/-! ### `saveLink` -/

@[simp] theorem saveLink_regs (s : State) : (saveLink s).regs = s.regs.set .r7 s.pc := rfl
@[simp] theorem saveLink_pc (s : State) : (saveLink s).pc = s.pc := rfl
@[simp] theorem saveLink_psr (s : State) : (saveLink s).psr = s.psr := rfl
@[simp] theorem saveLink_mem (s : State) : (saveLink s).mem = s.mem := rfl
@[simp] theorem saveLink_run (s : State) : (saveLink s).run = s.run := rfl
@[simp] theorem saveLink_haltCause (s : State) : (saveLink s).haltCause = s.haltCause := rfl
@[simp] theorem saveLink_inQ (s : State) : (saveLink s).inQ = s.inQ := rfl
@[simp] theorem saveLink_outLog (s : State) : (saveLink s).outLog = s.outLog := rfl
@[simp] theorem saveLink_peek (s : State) (a : Word) : (saveLink s).peek a = s.peek a := rfl

/-! ### `setcc` -/

@[simp] theorem setcc_regs (s : State) (v : Word) : (setcc v s).regs = s.regs := rfl
@[simp] theorem setcc_pc (s : State) (v : Word) : (setcc v s).pc = s.pc := rfl
@[simp] theorem setcc_psr (s : State) (v : Word) : (setcc v s).psr = psrWithFlags s.psr v := rfl
@[simp] theorem setcc_mem (s : State) (v : Word) : (setcc v s).mem = s.mem := rfl
@[simp] theorem setcc_run (s : State) (v : Word) : (setcc v s).run = s.run := rfl
@[simp] theorem setcc_haltCause (s : State) (v : Word) : (setcc v s).haltCause = s.haltCause := rfl
@[simp] theorem setcc_inQ (s : State) (v : Word) : (setcc v s).inQ = s.inQ := rfl
@[simp] theorem setcc_outLog (s : State) (v : Word) : (setcc v s).outLog = s.outLog := rfl
@[simp] theorem setcc_reg (s : State) (v : Word) (q : Reg) : (setcc v s).reg q = s.reg q := rfl
@[simp] theorem setcc_peek (s : State) (v : Word) (a : Word) : (setcc v s).peek a = s.peek a := rfl

/-! ### `writeResult` -/

@[simp] theorem writeResult_regs (s : State) (dr : Reg) (v : Word) : (writeResult dr v s).regs = s.regs.set dr v := rfl
@[simp] theorem writeResult_pc (s : State) (dr : Reg) (v : Word) : (writeResult dr v s).pc = s.pc := rfl
@[simp] theorem writeResult_psr (s : State) (dr : Reg) (v : Word) : (writeResult dr v s).psr = psrWithFlags s.psr v := rfl
@[simp] theorem writeResult_mem (s : State) (dr : Reg) (v : Word) : (writeResult dr v s).mem = s.mem := rfl
@[simp] theorem writeResult_run (s : State) (dr : Reg) (v : Word) : (writeResult dr v s).run = s.run := rfl
@[simp] theorem writeResult_haltCause (s : State) (dr : Reg) (v : Word) : (writeResult dr v s).haltCause = s.haltCause := rfl
@[simp] theorem writeResult_inQ (s : State) (dr : Reg) (v : Word) : (writeResult dr v s).inQ = s.inQ := rfl
@[simp] theorem writeResult_outLog (s : State) (dr : Reg) (v : Word) : (writeResult dr v s).outLog = s.outLog := rfl
@[simp] theorem writeResult_peek (s : State) (dr : Reg) (v : Word) (a : Word) : (writeResult dr v s).peek a = s.peek a := rfl

/-! ### `hostAppend` -/

@[simp] theorem hostAppend_regs (s : State) (bs : List Byte) : (hostAppend bs s).regs = s.regs := rfl
@[simp] theorem hostAppend_pc (s : State) (bs : List Byte) : (hostAppend bs s).pc = s.pc := rfl
@[simp] theorem hostAppend_psr (s : State) (bs : List Byte) : (hostAppend bs s).psr = s.psr := rfl
@[simp] theorem hostAppend_mem (s : State) (bs : List Byte) : (hostAppend bs s).mem = s.mem := rfl
@[simp] theorem hostAppend_run (s : State) (bs : List Byte) : (hostAppend bs s).run = s.run := rfl
@[simp] theorem hostAppend_haltCause (s : State) (bs : List Byte) : (hostAppend bs s).haltCause = s.haltCause := rfl
@[simp] theorem hostAppend_inQ (s : State) (bs : List Byte) : (hostAppend bs s).inQ = s.inQ ++ bs := rfl
@[simp] theorem hostAppend_outLog (s : State) (bs : List Byte) : (hostAppend bs s).outLog = s.outLog := rfl
@[simp] theorem hostAppend_reg (s : State) (bs : List Byte) (q : Reg) : (hostAppend bs s).reg q = s.reg q := rfl
@[simp] theorem hostAppend_peek (s : State) (bs : List Byte) (a : Word) : (hostAppend bs s).peek a = s.peek a := rfl

/-! ### A register read after a write -/

@[simp] theorem State.setReg_reg_same (s : State) (r : Reg) (v : Word) : (s.setReg r v).reg r = v :=
  RegFile.get_set_same _ _ _

theorem State.setReg_reg_ne (s : State) {r q : Reg} (v : Word) (h : q ≠ r) :
    (s.setReg r v).reg q = s.reg q :=
  RegFile.get_set_ne _ _ h

theorem State.setReg_reg (s : State) (r q : Reg) (v : Word) :
    (s.setReg r v).reg q = if q = r then v else s.reg q :=
  RegFile.get_set _ _ _ _

@[simp] theorem saveLink_reg_r7 (s : State) : (saveLink s).reg .r7 = s.pc := rfl

theorem saveLink_reg_ne (s : State) {q : Reg} (h : q ≠ .r7) : (saveLink s).reg q = s.reg q :=
  RegFile.get_set_ne _ _ h

@[simp] theorem saveLink_reg_r0 (s : State) : (saveLink s).reg .r0 = s.reg .r0 := rfl

@[simp] theorem writeResult_reg_same (s : State) (dr : Reg) (v : Word) :
    (writeResult dr v s).reg dr = v :=
  RegFile.get_set_same _ _ _

theorem writeResult_reg_ne (s : State) {dr q : Reg} (v : Word) (h : q ≠ dr) :
    (writeResult dr v s).reg q = s.reg q :=
  RegFile.get_set_ne _ _ h

/-! ### Launch and reset -/

@[simp] theorem launch_regs (pc psr : Word) (f : RegFile) (m : Memory) (q : List Byte) :
    (State.launch pc psr f m q).regs = f := rfl
@[simp] theorem launch_pc (pc psr : Word) (f : RegFile) (m : Memory) (q : List Byte) :
    (State.launch pc psr f m q).pc = pc := rfl
@[simp] theorem launch_psr (pc psr : Word) (f : RegFile) (m : Memory) (q : List Byte) :
    (State.launch pc psr f m q).psr = psr := rfl
@[simp] theorem launch_mem (pc psr : Word) (f : RegFile) (m : Memory) (q : List Byte) :
    (State.launch pc psr f m q).mem = m := rfl
@[simp] theorem launch_run (pc psr : Word) (f : RegFile) (m : Memory) (q : List Byte) :
    (State.launch pc psr f m q).run = .running := rfl
@[simp] theorem launch_haltCause (pc psr : Word) (f : RegFile) (m : Memory) (q : List Byte) :
    (State.launch pc psr f m q).haltCause = .none := rfl
@[simp] theorem launch_inQ (pc psr : Word) (f : RegFile) (m : Memory) (q : List Byte) :
    (State.launch pc psr f m q).inQ = q := rfl
@[simp] theorem launch_outLog (pc psr : Word) (f : RegFile) (m : Memory) (q : List Byte) :
    (State.launch pc psr f m q).outLog = [] := rfl

end Sys2Proof.Machine
end

