-- ==== Sys2Proof/Laws/Host.lean ====
section
/-! SUPPORT. What a turn of a scheduled run can do, and what a load changes. -/

namespace Sys2Proof.Machine

@[simp] theorem hostAppend_nil (s : State) : hostAppend [] s = s := by
  simp [hostAppend]

theorem hostAppend_append (bs cs : List Byte) (s : State) :
    hostAppend cs (hostAppend bs s) = hostAppend (bs ++ cs) s := by
  simp [hostAppend]

@[simp] theorem runScheduled_nil (s : State) : runScheduled [] s = .next s := rfl

/-- A turn whose step completes. -/
theorem runScheduled_next {bs : List Byte} {s t : State} (h : step (hostAppend bs s) = .next t)
    (schedule : List (List Byte)) : runScheduled (bs :: schedule) s = runScheduled schedule t := by
  simp only [runScheduled, h]

/-- A turn whose step is held: only the appended bytes remain of it. -/
theorem runScheduled_held {bs : List Byte} {s : State}
    (h : step (hostAppend bs s) = .fault .heldForInput) (schedule : List (List Byte)) :
    runScheduled (bs :: schedule) s = runScheduled schedule (hostAppend bs s) := by
  simp only [runScheduled, h]

/-- A load writes memory and nothing else (R180). -/
theorem loadObject_loaded {bytes : List Byte} {s t : State} (h : loadObject bytes s = .loaded t) :
    t = { s with mem := t.mem } := by
  unfold loadObject at h
  split at h <;> try cases h
  split at h <;> try cases h
  split at h <;> cases h
  rfl

/-- Loads write memory and nothing else, whatever is rejected on the way (R178, R180). -/
theorem loadObjects_only_mem (files : List (List Byte)) (s : State) :
    loadObjects files s = { s with mem := (loadObjects files s).mem } := by
  induction files generalizing s with
  | nil => rfl
  | cons file files ih =>
    simp only [loadObjects]
    cases h : loadObject file s with
    | rejected e => exact ih s
    | loaded t =>
      obtain ⟨m, rfl⟩ : ∃ m, t = { s with mem := m } := ⟨_, loadObject_loaded h⟩
      exact ih _

end Sys2Proof.Machine
end

