-- ==== Sys2Proof/Laws/Memory.lean ====
section
/-! SUPPORT. The laws of the memory array: a read after a write (spec/20_memory.md R45, R54), and the
canonical form, which every memory operation keeps. -/

namespace Sys2Proof.Machine

/-! ### Read after write -/

theorem readCells_dropCell_same (a : Nat) (l : List (Nat × Word)) :
    readCells a (dropCell a l) = unlistedWord := by
  induction l with
  | nil => rfl
  | cons c rest ih =>
    by_cases h : a = c.1 <;> simp [dropCell, readCells, h]
    · rw [← h]; exact ih
    · exact ih

theorem readCells_dropCell_ne {a b : Nat} (h : b ≠ a) (l : List (Nat × Word)) :
    readCells b (dropCell a l) = readCells b l := by
  induction l with
  | nil => rfl
  | cons c rest ih =>
    by_cases hc : a = c.1
    · have hb : b ≠ c.1 := hc ▸ h
      simp [dropCell, readCells, hc, hb]
      rw [← hc]; exact ih
    · simp [dropCell, readCells, hc, ih]

theorem readCells_insertCell_ne {a b : Nat} (h : b ≠ a) (v : Word) (l : List (Nat × Word)) :
    readCells b (insertCell a v l) = readCells b l := by
  induction l with
  | nil => simp [insertCell, readCells, h]
  | cons c rest ih =>
    by_cases hc : a < c.1 <;> simp [insertCell, readCells, hc, h, ih]

theorem readCells_insertCell_drop (a : Nat) (v : Word) (l : List (Nat × Word)) :
    readCells a (insertCell a v (dropCell a l)) = v := by
  induction l with
  | nil => simp [dropCell, insertCell, readCells]
  | cons c rest ih =>
    by_cases hc : a = c.1
    · simp only [dropCell, hc, if_true]
      rw [← hc]; exact ih
    · simp only [dropCell, hc, if_false]
      by_cases hl : a < c.1 <;> simp [insertCell, readCells, hl, hc, ih]

/-- "a read returns the value of the latest write to that address" (R54). -/
@[simp] theorem Memory.read_write_same (m : Memory) (a : Nat) (v : Word) :
    (m.write a v).read a = v := by
  unfold Memory.write Memory.read
  split
  · next h => rw [h]; exact readCells_dropCell_same a m.cells
  · exact readCells_insertCell_drop a v m.cells

/-- A write leaves every other cell alone. -/
theorem Memory.read_write_ne (m : Memory) {a b : Nat} (v : Word) (h : b ≠ a) :
    (m.write a v).read b = m.read b := by
  unfold Memory.write Memory.read
  split
  · exact readCells_dropCell_ne h m.cells
  · rw [readCells_insertCell_ne h, readCells_dropCell_ne h]

@[simp] theorem Memory.read_empty (a : Nat) : Memory.empty.read a = unlistedWord := rfl

/-! ### The same for the access primitives of a state -/

@[simp] theorem memWrite_peek_same (s : State) (a v : Word) : (memWrite a v s).peek a = v :=
  Memory.read_write_same _ _ _

theorem memWrite_peek_ne (s : State) {a b : Word} (v : Word) (h : b ≠ a) :
    (memWrite a v s).peek b = s.peek b :=
  Memory.read_write_ne _ _ fun e => h (BitVec.eq_of_toNat_eq e)

theorem memWrite_peek (s : State) (a b v : Word) :
    (memWrite a v s).peek b = if b = a then v else s.peek b := by
  split
  · next h => rw [h, memWrite_peek_same]
  · next h => exact memWrite_peek_ne s v h

/-! ### The canonical form -/

theorem wfCells_cons {low a : Nat} {v : Word} {rest : List (Nat × Word)} :
    wfCells low ((a, v) :: rest) = true ↔
      low ≤ a ∧ a < memWords ∧ v ≠ unlistedWord ∧ wfCells (a + 1) rest = true := by
  simp [wfCells, and_assoc]

/-- A lower bound of the addresses may be weakened. -/
theorem wfCells_mono {low low' : Nat} (h : low' ≤ low) {l : List (Nat × Word)}
    (hl : wfCells low l = true) : wfCells low' l = true := by
  cases l with
  | nil => rfl
  | cons c rest =>
    obtain ⟨a, v⟩ := c
    rw [wfCells_cons] at hl ⊢
    exact ⟨h.trans hl.1, hl.2⟩

/-- An address below the bound is not listed. -/
theorem readCells_of_lt {low a : Nat} {l : List (Nat × Word)} (hl : wfCells low l = true)
    (h : a < low) : readCells a l = unlistedWord := by
  induction l generalizing low with
  | nil => rfl
  | cons c rest ih =>
    obtain ⟨b, v⟩ := c
    rw [wfCells_cons] at hl
    have hb : a ≠ b := by omega
    simp only [readCells, if_neg hb]
    exact ih hl.2.2.2 (by omega)

theorem wfCells_dropCell {low : Nat} (a : Nat) {l : List (Nat × Word)}
    (hl : wfCells low l = true) : wfCells low (dropCell a l) = true := by
  induction l generalizing low with
  | nil => rfl
  | cons c rest ih =>
    obtain ⟨b, v⟩ := c
    rw [wfCells_cons] at hl
    by_cases h : a = b
    · simp only [dropCell, h, if_true]
      rw [← h]
      exact wfCells_mono (by omega) (ih hl.2.2.2)
    · simp only [dropCell, h, if_false]
      exact wfCells_cons.mpr ⟨hl.1, hl.2.1, hl.2.2.1, ih hl.2.2.2⟩

theorem dropCell_not_mem (a : Nat) (l : List (Nat × Word)) : ∀ c ∈ dropCell a l, c.1 ≠ a := by
  induction l with
  | nil => simp [dropCell]
  | cons c rest ih =>
    by_cases h : a = c.1
    · simp only [dropCell, h, if_true]
      rw [← h]; exact ih
    · simp only [dropCell, h, if_false]
      intro d hd
      rcases List.mem_cons.mp hd with rfl | hd
      · exact fun e => h e.symm
      · exact ih d hd

theorem wfCells_insertCell {low a : Nat} {v : Word} {l : List (Nat × Word)}
    (hl : wfCells low l = true) (hlow : low ≤ a) (ha : a < memWords) (hv : v ≠ unlistedWord)
    (hne : ∀ c ∈ l, c.1 ≠ a) : wfCells low (insertCell a v l) = true := by
  induction l generalizing low with
  | nil => exact wfCells_cons.mpr ⟨hlow, ha, hv, rfl⟩
  | cons c rest ih =>
    obtain ⟨b, w⟩ := c
    have hb : b ≠ a := hne (b, w) List.mem_cons_self
    rw [wfCells_cons] at hl
    by_cases h : a < b
    · simp only [insertCell, h, if_true]
      exact wfCells_cons.mpr ⟨hlow, ha, hv, wfCells_cons.mpr ⟨h, hl.2⟩⟩
    · simp only [insertCell, h, if_false]
      exact wfCells_cons.mpr ⟨hl.1, hl.2.1, hl.2.2.1,
        ih hl.2.2.2 (by omega) fun d hd => hne d (List.mem_cons_of_mem _ hd)⟩

/-- A write inside the address space keeps the canonical form. -/
theorem Memory.wf_write {m : Memory} {a : Nat} (v : Word) (hm : m.wf = true) (ha : a < memWords) :
    (m.write a v).wf = true := by
  unfold Memory.write Memory.wf
  split
  · exact wfCells_dropCell a hm
  · next hv =>
    exact wfCells_insertCell (wfCells_dropCell a hm) (Nat.zero_le a) ha hv (dropCell_not_mem a _)

theorem Memory.wf_empty : Memory.empty.wf = true := rfl

/-- Every word is the address of a cell (spec/20_memory.md R43). -/
theorem toNat_lt_memWords (a : Word) : a.toNat < memWords := a.isLt

theorem memWrite_wf {s : State} (a v : Word) (h : s.mem.wf = true) :
    (memWrite a v s).mem.wf = true :=
  Memory.wf_write v h (toNat_lt_memWords a)

theorem writeWords_wf {a : Nat} {ws : List Word} {m : Memory} (hm : m.wf = true)
    (ha : a + ws.length ≤ memWords) : (writeWords a ws m).wf = true := by
  induction ws generalizing a m with
  | nil => exact hm
  | cons w ws ih =>
    simp only [List.length_cons] at ha
    exact ih (Memory.wf_write w hm (by omega)) (by omega)

/-- Reset memory is in canonical form. -/
theorem reset_mem_wf : State.reset.mem.wf = true := rfl

end Sys2Proof.Machine
end

