-- ==== Sys2Proof/Laws/Ops.lean ====
section
/-! SUPPORT. One lemma per shared operation that says everything it can do. -/

namespace Sys2Proof.Machine

/-- What reading memory can do to a state (R44, R49): it may rewrite the two device cells and take
bytes from the head of the input, and nothing else. -/
structure ReadEffect (s t : State) : Prop where
  regs : t.regs = s.regs
  pc : t.pc = s.pc
  psr : t.psr = s.psr
  run : t.run = s.run
  haltCause : t.haltCause = s.haltCause
  outLog : t.outLog = s.outLog
  input : ∃ taken, s.inQ = taken ++ t.inQ
  memory : ∀ a, a ≠ statusAddr → a ≠ dataAddr → t.peek a = s.peek a
  wf : s.mem.wf = true → t.mem.wf = true

theorem ReadEffect.refl (s : State) : ReadEffect s s :=
  ⟨rfl, rfl, rfl, rfl, rfl, rfl, ⟨[], rfl⟩, fun _ _ _ => rfl, id⟩

theorem ReadEffect.trans {s t u : State} (h : ReadEffect s t) (k : ReadEffect t u) :
    ReadEffect s u := by
  obtain ⟨x, hx⟩ := h.input
  obtain ⟨y, hy⟩ := k.input
  exact ⟨k.regs.trans h.regs, k.pc.trans h.pc, k.psr.trans h.psr, k.run.trans h.run,
    k.haltCause.trans h.haltCause, k.outLog.trans h.outLog,
    ⟨x ++ y, by rw [hx, hy, List.append_assoc]⟩,
    fun a hs hd => (k.memory a hs hd).trans (h.memory a hs hd), fun w => k.wf (h.wf w)⟩

theorem ReadEffect.reg {s t : State} (h : ReadEffect s t) (r : Reg) : t.reg r = s.reg r := by
  simp only [State.reg, h.regs]

/-! ### The poll and `MemRead` -/

/-- A poll that finds no byte (R44). -/
theorem pollStatus_none {s : State} (h : s.inQ = []) :
    pollStatus s = memWrite statusAddr statusIdle s := by
  simp only [pollStatus, inPoll, h]

/-- A poll that takes a byte (R44). -/
theorem pollStatus_some {s : State} {b : Byte} {rest : List Byte} (h : s.inQ = b :: rest) :
    pollStatus s =
      memWrite dataAddr (zext8 b) (memWrite statusAddr statusReady { s with inQ := rest }) := by
  simp only [pollStatus, inPoll, h]

theorem statusAddr_ne_dataAddr : statusAddr ≠ dataAddr := by decide

theorem pollStatus_effect (s : State) : ReadEffect s (pollStatus s) := by
  cases h : s.inQ with
  | nil =>
    rw [pollStatus_none h]
    exact ⟨rfl, rfl, rfl, rfl, rfl, rfl, ⟨[], rfl⟩, fun a hs _ => memWrite_peek_ne s _ hs,
      memWrite_wf _ _⟩
  | cons b rest =>
    rw [pollStatus_some h]
    refine ⟨rfl, rfl, rfl, rfl, rfl, rfl, ⟨[b], by simp [h]⟩, fun a hs hd => ?_, fun w => ?_⟩
    · rw [memWrite_peek_ne _ _ hd, memWrite_peek_ne _ _ hs]
      rfl
    · exact memWrite_wf _ _ (memWrite_wf _ _ w)

/-- "all other addresses are pure" (R44). -/
theorem memRead_of_ne {a : Word} (h : a ≠ statusAddr) (s : State) : memRead a s = (s.peek a, s) :=
  if_neg h

theorem memRead_status (s : State) :
    memRead statusAddr s = ((pollStatus s).peek statusAddr, pollStatus s) :=
  if_pos rfl

/-- A read of the status address with no byte waiting (R44). -/
theorem memRead_status_none {s : State} (h : s.inQ = []) :
    memRead statusAddr s = (statusIdle, memWrite statusAddr statusIdle s) := by
  rw [memRead_status, pollStatus_none h, memWrite_peek_same]

/-- A read of the status address with a byte waiting (R44). -/
theorem memRead_status_some {s : State} {b : Byte} {rest : List Byte} (h : s.inQ = b :: rest) :
    memRead statusAddr s = (statusReady,
      memWrite dataAddr (zext8 b) (memWrite statusAddr statusReady { s with inQ := rest })) := by
  rw [memRead_status, pollStatus_some h, memWrite_peek_ne _ _ statusAddr_ne_dataAddr,
    memWrite_peek_same]

/-- Everything a read can do. -/
theorem memRead_effect (a : Word) (s : State) : ReadEffect s (memRead a s).2 := by
  unfold memRead
  split
  · exact pollStatus_effect s
  · exact ReadEffect.refl s

/-! ### Input, halting, pops -/

theorem inWait_nil {s : State} (h : s.inQ = []) : inWait s = none := by
  simp only [inWait, h]

theorem inWait_cons {s : State} {b : Byte} {rest : List Byte} (h : s.inQ = b :: rest) :
    inWait s = some (b, { s with inQ := rest }) := by
  simp only [inWait, h]

/-- A blocking read that completes took the head of the queue and changed nothing else (R133). -/
theorem inWait_cases {s t : State} {c : Byte} (h : inWait s = some (c, t)) :
    s.inQ = c :: t.inQ ∧ t = { s with inQ := t.inQ } := by
  unfold inWait at h
  split at h
  · cases h
  · next b rest hq =>
    cases h
    exact ⟨hq, rfl⟩

/-- Everything a pop can do: a read, and register 6 plus 1 (R130). -/
theorem popStack_eq (s : State) :
    popStack s = ((memRead (s.reg .r6) s).1,
      (memRead (s.reg .r6) s).2.setReg .r6 (s.reg .r6 + 1#16)) := by
  simp only [popStack, (memRead_effect _ s).reg]

/-! ### The string walk -/

/-- What a string walk can do to a state: what reads can do, and bytes appended to the output. -/
structure WalkEffect (s t : State) : Prop where
  regs : t.regs = s.regs
  pc : t.pc = s.pc
  psr : t.psr = s.psr
  run : t.run = s.run
  haltCause : t.haltCause = s.haltCause
  output : ∃ emitted, t.outLog = s.outLog ++ emitted
  input : ∃ taken, s.inQ = taken ++ t.inQ
  memory : ∀ a, a ≠ statusAddr → a ≠ dataAddr → t.peek a = s.peek a
  wf : s.mem.wf = true → t.mem.wf = true

theorem ReadEffect.toWalk {s t : State} (h : ReadEffect s t) : WalkEffect s t :=
  ⟨h.regs, h.pc, h.psr, h.run, h.haltCause, ⟨[], by rw [h.outLog, List.append_nil]⟩, h.input,
    h.memory, h.wf⟩

theorem WalkEffect.trans {s t u : State} (h : WalkEffect s t) (k : WalkEffect t u) :
    WalkEffect s u := by
  obtain ⟨x, hx⟩ := h.input
  obtain ⟨y, hy⟩ := k.input
  obtain ⟨e, he⟩ := h.output
  obtain ⟨f, hf⟩ := k.output
  exact ⟨k.regs.trans h.regs, k.pc.trans h.pc, k.psr.trans h.psr, k.run.trans h.run,
    k.haltCause.trans h.haltCause, ⟨e ++ f, by rw [hf, he, List.append_assoc]⟩,
    ⟨x ++ y, by rw [hx, hy, List.append_assoc]⟩,
    fun a hs hd => (k.memory a hs hd).trans (h.memory a hs hd), fun w => k.wf (h.wf w)⟩

theorem outBytes_effect (bs : List Byte) (s : State) : WalkEffect s (outBytes bs s) :=
  ⟨rfl, rfl, rfl, rfl, rfl, ⟨bs, rfl⟩, ⟨[], rfl⟩, fun _ _ _ => rfl, id⟩

theorem stringWalk_zero (stop : Word → Bool) (bytes : Word → List Byte) (a : Word) (s : State) :
    stringWalk stop bytes 0 a s = .fault .walkNeverEnds := rfl

theorem stringWalk_succ (stop : Word → Bool) (bytes : Word → List Byte) (fuel : Nat) (a : Word)
    (s : State) :
    stringWalk stop bytes (fuel + 1) a s =
      if stop (memRead a s).1 then .next (memRead a s).2
      else stringWalk stop bytes fuel (a + 1#16)
        (outBytes (bytes (memRead a s).1) (memRead a s).2) := rfl

/-- A walk never refuses, and its one fault is that it found no terminator. -/
theorem stringWalk_cases (stop : Word → Bool) (bytes : Word → List Byte) (fuel : Nat) (a : Word)
    (s : State) :
    (∃ t, stringWalk stop bytes fuel a s = .next t ∧ WalkEffect s t) ∨
      stringWalk stop bytes fuel a s = .fault .walkNeverEnds := by
  induction fuel generalizing a s with
  | zero => exact .inr rfl
  | succ fuel ih =>
    rw [stringWalk_succ]
    have hr := (memRead_effect a s).toWalk
    split
    · exact .inl ⟨_, rfl, hr⟩
    · obtain ⟨t, ht, he⟩ | hf := ih (a + 1#16) (outBytes (bytes (memRead a s).1) (memRead a s).2)
      · exact .inl ⟨t, ht, (hr.trans (outBytes_effect _ _)).trans he⟩
      · exact .inr hf

/-- Everything a walk that ends can do. -/
theorem stringWalk_effect {stop : Word → Bool} {bytes : Word → List Byte} {fuel : Nat} {a : Word}
    {s t : State} (h : stringWalk stop bytes fuel a s = .next t) : WalkEffect s t := by
  obtain ⟨u, hu, he⟩ | hf := stringWalk_cases stop bytes fuel a s
  · rw [h] at hu
    cases hu
    exact he
  · rw [h] at hf
    cases hf

/-! ### Flags -/

/-- BR's test, flag by flag (R100). -/
theorem branchTaken_eq (n z p : Bool) (psr : Word) :
    branchTaken n z p psr =
      ((n && psr.getLsbD 2) || (z && psr.getLsbD 1) || (p && psr.getLsbD 0)) := by
  have h : flagBits psr = conditionBits (psr.getLsbD 2) (psr.getLsbD 1) (psr.getLsbD 0) := by
    refine BitVec.eq_of_getLsbD_eq fun i hi => ?_
    unfold flagBits conditionBits
    interval_cases i <;> simp
  unfold branchTaken
  rw [h]
  generalize psr.getLsbD 2 = a
  generalize psr.getLsbD 1 = b
  generalize psr.getLsbD 0 = c
  revert n z p a b c
  decide

/-- `setcc` writes bits 2:0 only (R26). -/
theorem flagsOf_high (v : Word) {k : Nat} (hk : 3 ≤ k) : (flagsOf v).getLsbD k = false := by
  by_cases h16 : k < 16
  · unfold flagsOf
    interval_cases k <;> (split <;> [rfl; (split <;> rfl)])
  · exact BitVec.getLsbD_of_ge _ _ (by omega)

/-! ### The instructions whose meaning splits on the state -/

theorem exec_rti_user {s : State} (h : s.psr.getLsbD 15 = true) :
    exec .rti s = .next (raiseFatal .privilegeViolation s) :=
  if_pos h

theorem exec_rti_supervisor {s : State} (h : s.psr.getLsbD 15 = false) :
    exec .rti s = .next (returnFromInterrupt s) :=
  if_neg fun hu => Bool.noConfusion (h.symm.trans hu)

theorem exec_getc_held {s : State} (h : s.inQ = []) : exec .trapGetc s = .fault .heldForInput := by
  simp only [exec, execTrapGetc, inWait_nil (s := saveLink s) h]

theorem exec_getc_reads {s : State} {c : Byte} {rest : List Byte} (h : s.inQ = c :: rest) :
    exec .trapGetc s = .next (writeResult .r0 (zext8 c) { saveLink s with inQ := rest }) := by
  simp only [exec, execTrapGetc, inWait_cons (s := saveLink s) h]

theorem exec_in_held {s : State} (h : s.inQ = []) : exec .trapIn s = .fault .heldForInput := by
  simp only [exec, execTrapIn, inWait_nil (s := outBytes inPrompt (saveLink s)) h]

theorem exec_in_reads {s : State} {c : Byte} {rest : List Byte} (h : s.inQ = c :: rest) :
    exec .trapIn s = .next ((outBytes [c]
      { outBytes inPrompt (saveLink s) with inQ := rest }).setReg .r0 (zext8 c)) := by
  simp only [exec, execTrapIn, inWait_cons (s := outBytes inPrompt (saveLink s)) h]
  rfl

/-! ### Fetch and step -/

/-- The fetch reads the word at the pc and increments the pc (R10). -/
theorem fetch_eq (s : State) :
    fetch s = ((memRead s.pc s).1, (memRead s.pc s).2.setPc (s.pc + 1#16)) := by
  simp only [fetch, (memRead_effect _ s).pc]

theorem fetch_of_ne {s : State} (h : s.pc ≠ statusAddr) :
    fetch s = (s.peek s.pc, s.setPc (s.pc + 1#16)) := by
  rw [fetch_eq, memRead_of_ne h]

theorem step_halted {s : State} (h : s.run = .halted) : step s = .next s := by
  simp only [step, h]

theorem step_running {s : State} (h : s.run = .running) :
    step s = exec (decode (fetch s).1) (fetch s).2 := by
  simp only [step, h]

end Sys2Proof.Machine
end

