-- ==== Sys2Proof/Laws/PerInstr.lean ====
section
/-! SUPPORT. Families of statements about every instruction as syntax, one lemma per constructor. -/

namespace Sys2Proof.Laws.EncodesOpcode

/-- The opcode number of an instruction (spec/30_encoding.md R75). -/
def opcodeNumber : Instr → BitVec 4
  | .br _ _ _ _ => 0x0#4
  | .addReg _ _ _ => 0x1#4
  | .addImm _ _ _ => 0x1#4
  | .ld _ _ => 0x2#4
  | .st _ _ => 0x3#4
  | .jsr _ => 0x4#4
  | .jsrr _ => 0x4#4
  | .andReg _ _ _ => 0x5#4
  | .andImm _ _ _ => 0x5#4
  | .ldr _ _ _ => 0x6#4
  | .str _ _ _ => 0x7#4
  | .rti => 0x8#4
  | .not _ _ => 0x9#4
  | .ldi _ _ => 0xA#4
  | .sti _ _ => 0xB#4
  | .jmp _ => 0xC#4
  | .reserved => 0xD#4
  | .lea _ _ => 0xE#4
  | .trapGetc => 0xF#4
  | .trapOut => 0xF#4
  | .trapPuts => 0xF#4
  | .trapIn => 0xF#4
  | .trapPutsp => 0xF#4
  | .trapHalt => 0xF#4
  | .trapUnrecognised _ => 0xF#4

/-- The encoder puts the instruction's opcode number in bits 15:12. -/
def Statement (i : Instr) : Prop := opcodeField (encode i) = opcodeNumber i

/-- An opcode and one word of lower fields. -/
theorem top_or {k : BitVec 4} {w rest : Word} (hw : opcodeField w = k) (hr : opcodeField rest = 0#4) :
    opcodeField (w ||| rest) = k := by
  rw [opcodeField_or, hw, hr, BitVec.or_zero]

theorem br (n z p : Bool) (off : BitVec 9) : Statement (.br n z p off) := by
  refine top_or ?_ (opcodeField_place_low _ (by decide))
  refine top_or ?_ (opcodeField_place_low _ (by decide))
  refine top_or ?_ (opcodeField_place_low _ (by decide))
  refine top_or ?_ (opcodeField_place_low _ (by decide))
  exact opcodeField_place_top _

theorem addReg (dr sr1 sr2 : Reg) : Statement (.addReg dr sr1 sr2) := by
  refine top_or ?_ (opcodeField_place_low _ (by decide))
  refine top_or ?_ (opcodeField_place_low _ (by decide))
  refine top_or ?_ (opcodeField_place_low _ (by decide))
  refine top_or ?_ (opcodeField_place_low _ (by decide))
  exact opcodeField_place_top _

theorem addImm (dr sr1 : Reg) (imm : BitVec 5) : Statement (.addImm dr sr1 imm) := by
  refine top_or ?_ (opcodeField_place_low _ (by decide))
  refine top_or ?_ (opcodeField_place_low _ (by decide))
  refine top_or ?_ (opcodeField_place_low _ (by decide))
  refine top_or ?_ (opcodeField_place_low _ (by decide))
  exact opcodeField_place_top _

theorem ld (dr : Reg) (off : BitVec 9) : Statement (.ld dr off) := by
  refine top_or ?_ (opcodeField_place_low _ (by decide))
  refine top_or ?_ (opcodeField_place_low _ (by decide))
  exact opcodeField_place_top _

theorem st (sr : Reg) (off : BitVec 9) : Statement (.st sr off) := by
  refine top_or ?_ (opcodeField_place_low _ (by decide))
  refine top_or ?_ (opcodeField_place_low _ (by decide))
  exact opcodeField_place_top _

theorem jsr (off : BitVec 11) : Statement (.jsr off) := by
  refine top_or ?_ (opcodeField_place_low _ (by decide))
  refine top_or ?_ (opcodeField_place_low _ (by decide))
  exact opcodeField_place_top _

theorem jsrr (base : Reg) : Statement (.jsrr base) := by
  refine top_or ?_ (opcodeField_place_low _ (by decide))
  refine top_or ?_ (opcodeField_place_low _ (by decide))
  exact opcodeField_place_top _

theorem andReg (dr sr1 sr2 : Reg) : Statement (.andReg dr sr1 sr2) := by
  refine top_or ?_ (opcodeField_place_low _ (by decide))
  refine top_or ?_ (opcodeField_place_low _ (by decide))
  refine top_or ?_ (opcodeField_place_low _ (by decide))
  refine top_or ?_ (opcodeField_place_low _ (by decide))
  exact opcodeField_place_top _

theorem andImm (dr sr1 : Reg) (imm : BitVec 5) : Statement (.andImm dr sr1 imm) := by
  refine top_or ?_ (opcodeField_place_low _ (by decide))
  refine top_or ?_ (opcodeField_place_low _ (by decide))
  refine top_or ?_ (opcodeField_place_low _ (by decide))
  refine top_or ?_ (opcodeField_place_low _ (by decide))
  exact opcodeField_place_top _

theorem ldr (dr base : Reg) (off : BitVec 6) : Statement (.ldr dr base off) := by
  refine top_or ?_ (opcodeField_place_low _ (by decide))
  refine top_or ?_ (opcodeField_place_low _ (by decide))
  refine top_or ?_ (opcodeField_place_low _ (by decide))
  exact opcodeField_place_top _

theorem str (sr base : Reg) (off : BitVec 6) : Statement (.str sr base off) := by
  refine top_or ?_ (opcodeField_place_low _ (by decide))
  refine top_or ?_ (opcodeField_place_low _ (by decide))
  refine top_or ?_ (opcodeField_place_low _ (by decide))
  exact opcodeField_place_top _

theorem rti : Statement .rti :=
  opcodeField_place_top _

theorem not (dr sr : Reg) : Statement (.not dr sr) := by
  refine top_or ?_ (opcodeField_place_low _ (by decide))
  refine top_or ?_ (opcodeField_place_low _ (by decide))
  refine top_or ?_ (opcodeField_place_low _ (by decide))
  exact opcodeField_place_top _

theorem ldi (dr : Reg) (off : BitVec 9) : Statement (.ldi dr off) := by
  refine top_or ?_ (opcodeField_place_low _ (by decide))
  refine top_or ?_ (opcodeField_place_low _ (by decide))
  exact opcodeField_place_top _

theorem sti (sr : Reg) (off : BitVec 9) : Statement (.sti sr off) := by
  refine top_or ?_ (opcodeField_place_low _ (by decide))
  refine top_or ?_ (opcodeField_place_low _ (by decide))
  exact opcodeField_place_top _

theorem jmp (base : Reg) : Statement (.jmp base) :=
  top_or (opcodeField_place_top _) (opcodeField_place_low _ (by decide))

theorem reserved : Statement .reserved :=
  opcodeField_place_top _

theorem lea (dr : Reg) (off : BitVec 9) : Statement (.lea dr off) := by
  refine top_or ?_ (opcodeField_place_low _ (by decide))
  refine top_or ?_ (opcodeField_place_low _ (by decide))
  exact opcodeField_place_top _

theorem trapGetc : Statement .trapGetc :=
  top_or (opcodeField_place_top _) (opcodeField_place_low _ (by decide))

theorem trapOut : Statement .trapOut :=
  top_or (opcodeField_place_top _) (opcodeField_place_low _ (by decide))

theorem trapPuts : Statement .trapPuts :=
  top_or (opcodeField_place_top _) (opcodeField_place_low _ (by decide))

theorem trapIn : Statement .trapIn :=
  top_or (opcodeField_place_top _) (opcodeField_place_low _ (by decide))

theorem trapPutsp : Statement .trapPutsp :=
  top_or (opcodeField_place_top _) (opcodeField_place_low _ (by decide))

theorem trapHalt : Statement .trapHalt :=
  top_or (opcodeField_place_top _) (opcodeField_place_low _ (by decide))

theorem trapUnrecognised (v : BitVec 8) : Statement (.trapUnrecognised v) :=
  top_or (opcodeField_place_top _) (opcodeField_place_low _ (by decide))

end Sys2Proof.Laws.EncodesOpcode
end

