-- ==== Sys2Proof/Tests/Slice0.lean ====
section
/-! SUPPORT. The model's own tests: the WellFormed smoke, words written out from the encodings of
spec/30_encoding.md, one-step tests whose results are the vectors V<n> of spec/95_test_vectors.md,
and a witness for every statement that has hypotheses. -/

namespace Sys2Proof.Tests

open Sys2Proof Sys2Proof.Machine Sys2Proof.Claims

/-! ### A small start state -/

/-- A running machine: pc, status word, registers set, memory cells set, input. -/
def start (pc psr : Word) (rs : List (Reg × Word)) (cells : List (Word × Word)) (inQ : List Byte) :
    State :=
  rs.foldl (fun s rv => s.setReg rv.1 rv.2)
    (cells.foldl (fun s av => memWrite av.1 av.2 s)
      (State.launch pc psr (RegFile.all 0x0BAD#16) Memory.empty inQ))

/-- The answer is a next state with the property. -/
def after (r : Result) (p : State → Bool) : Bool :=
  match r with
  | .next t => p t
  | .fault _ => false
  | .refused _ => false

/-- The pc and the status word of a state. -/
def pcPsr (t : State) : Word × Word := (t.pc, t.psr)

/-- Still running with no halt cause. -/
def runs (t : State) : Bool := t.run == .running && t.haltCause == .none

/-! ### WellFormed smoke -/

theorem test_illformed_getc_vector : (Instr.trapUnrecognised 0x20#8).wellFormed = false := by decide
theorem test_illformed_out_vector : (Instr.trapUnrecognised 0x21#8).wellFormed = false := by decide
theorem test_illformed_puts_vector : (Instr.trapUnrecognised 0x22#8).wellFormed = false := by decide
theorem test_illformed_in_vector : (Instr.trapUnrecognised 0x23#8).wellFormed = false := by decide
theorem test_illformed_putsp_vector : (Instr.trapUnrecognised 0x24#8).wellFormed = false := by decide
theorem test_illformed_halt_vector : (Instr.trapUnrecognised 0x25#8).wellFormed = false := by decide
theorem test_wellformed_neighbours : (Instr.trapUnrecognised 0x1F#8).wellFormed = true ∧
    (Instr.trapUnrecognised 0x26#8).wellFormed = true := by decide

/-! ### Decoding: words written out bit by bit from R72 and R73 -/

theorem test_decode_br : decode 0b0000_001_111111101#16 = .br false false true 0b111111101#9 := by decide
theorem test_decode_br_nz : decode 0b0000_110_000000101#16 = .br true true false 5#9 := by decide
theorem test_decode_add_reg : decode 0b0001_000_001_0_00_010#16 = .addReg .r0 .r1 .r2 := by decide
theorem test_decode_add_reg_ignored : decode 0b0001_000_001_0_11_010#16 = .addReg .r0 .r1 .r2 := by decide
theorem test_decode_add_imm : decode 0b0001_001_010_1_10000#16 = .addImm .r1 .r2 0b10000#5 := by decide
theorem test_decode_ld : decode 0b0010_011_100000001#16 = .ld .r3 0b100000001#9 := by decide
theorem test_decode_st : decode 0b0011_101_000000010#16 = .st .r5 2#9 := by decide
theorem test_decode_jsr : decode 0b0100_1_10000000001#16 = .jsr 0b10000000001#11 := by decide
theorem test_decode_jsrr : decode 0b0100_0_00_010_000000#16 = .jsrr .r2 := by decide
theorem test_decode_jsrr_ignored : decode 0b0100_0_11_010_111111#16 = .jsrr .r2 := by decide
theorem test_decode_and_reg : decode 0b0101_100_101_0_00_110#16 = .andReg .r4 .r5 .r6 := by decide
theorem test_decode_and_imm : decode 0b0101_000_111_1_00011#16 = .andImm .r0 .r7 3#5 := by decide
theorem test_decode_ldr : decode 0b0110_000_001_100000#16 = .ldr .r0 .r1 0b100000#6 := by decide
theorem test_decode_str : decode 0b0111_111_001_111111#16 = .str .r7 .r1 0b111111#6 := by decide
theorem test_decode_rti : decode 0b1000_000000000000#16 = .rti := by decide
theorem test_decode_rti_ignored : decode 0b1000_111111111111#16 = .rti := by decide
theorem test_decode_not : decode 0b1001_010_011_111111#16 = .not .r2 .r3 := by decide
theorem test_decode_not_ignored : decode 0b1001_010_011_000000#16 = .not .r2 .r3 := by decide
theorem test_decode_ldi : decode 0b1010_110_000000010#16 = .ldi .r6 2#9 := by decide
theorem test_decode_sti : decode 0b1011_001_000000010#16 = .sti .r1 2#9 := by decide
theorem test_decode_jmp : decode 0b1100_000_010_000000#16 = .jmp .r2 := by decide
theorem test_decode_ret : decode 0b1100_000_111_000000#16 = .jmp .r7 := by decide
theorem test_decode_jmp_ignored : decode 0b1100_111_010_111111#16 = .jmp .r2 := by decide
theorem test_decode_reserved : decode 0b1101_101010101010#16 = .reserved := by decide
theorem test_decode_lea : decode 0b1110_000_111111111#16 = .lea .r0 0x1FF#9 := by decide
theorem test_decode_getc : decode 0b1111_0000_00100000#16 = .trapGetc := by decide
theorem test_decode_out_ignored : decode 0b1111_1111_00100001#16 = .trapOut := by decide
theorem test_decode_puts : decode 0b1111_0000_00100010#16 = .trapPuts := by decide
theorem test_decode_in : decode 0b1111_0000_00100011#16 = .trapIn := by decide
theorem test_decode_putsp : decode 0b1111_0000_00100100#16 = .trapPutsp := by decide
theorem test_decode_halt : decode 0b1111_0000_00100101#16 = .trapHalt := by decide
theorem test_decode_unrecognised : decode 0b1111_0000_00011111#16 = .trapUnrecognised 0x1F#8 := by decide
theorem test_decode_unrecognised_top : decode 0b1111_0000_11111111#16 = .trapUnrecognised 0xFF#8 := by decide

/-- The assembler's words of R90: unused bits 0, but ones in NOT. -/
theorem test_encode_words : encode (.not .r0 .r1) = 0x907F#16 ∧ encode (.addImm .r0 .r0 5#5) = 0x1025#16 ∧
    encode (.jmp .r7) = 0xC1C0#16 ∧ encode .trapHalt = 0xF025#16 := by decide

/-! ### One step each, from the vectors -/

/-- V12. -/
theorem test_br_taken : after (step (start 0x3004 0x0001 [] [(0x3004, 0x03FD)] []))
    (fun t => pcPsr t == (0x3002, 0x0001) && runs t) = true := by decide
/-- V1. -/
theorem test_br_no_flag_set : after (step (start 0x3000 0x0000 [] [(0x3000, 0x0E00)] []))
    (fun t => pcPsr t == (0x3001, 0x0000)) = true := by decide
/-- V21. -/
theorem test_add_overflow : after (step (start 0x3000 0x0002 [(.r1, 0x7FFF), (.r2, 1)] [(0x3000, 0x1042)] []))
    (fun t => t.reg .r0 == 0x8000 && pcPsr t == (0x3001, 0x0004)) = true := by decide
/-- V24. -/
theorem test_add_same_register : after (step (start 0x3000 0x0002 [(.r3, 0x4000)] [(0x3000, 0x16C3)] []))
    (fun t => t.reg .r3 == 0x8000 && pcPsr t == (0x3001, 0x0004)) = true := by decide
/-- V27. -/
theorem test_add_imm_minus16 : after (step (start 0x3000 0x0002 [(.r1, 0x0010)] [(0x3000, 0x1270)] []))
    (fun t => t.reg .r1 == 0x0000 && pcPsr t == (0x3001, 0x0002)) = true := by decide
/-- V31. -/
theorem test_and_reg : after (step (start 0x3000 0x0002 [(.r1, 0xF0F0), (.r2, 0xFF00)] [(0x3000, 0x5042)] []))
    (fun t => t.reg .r0 == 0xF000 && pcPsr t == (0x3001, 0x0004)) = true := by decide
/-- V34. -/
theorem test_and_imm_minus16 : after (step (start 0x3000 0x0002 [(.r1, 0x1234)] [(0x3000, 0x5270)] []))
    (fun t => t.reg .r1 == 0x1230 && pcPsr t == (0x3001, 0x0001)) = true := by decide
/-- V33. -/
theorem test_and_imm_user_mode : after (step (start 0x3000 0x8004 [(.r0, 0xBEEF)] [(0x3000, 0x5020)] []))
    (fun t => t.reg .r0 == 0x0000 && pcPsr t == (0x3001, 0x8002)) = true := by decide
/-- V39. -/
theorem test_not : after (step (start 0x3000 0x0002 [(.r1, 0x8000)] [(0x3000, 0x907F)] []))
    (fun t => t.reg .r0 == 0x7FFF && pcPsr t == (0x3001, 0x0001)) = true := by decide
/-- V53. -/
theorem test_ld_minus256 : after (step (start 0x3000 0x0002 [] [(0x3000, 0x2300), (0x2F01, 0x7FFF)] []))
    (fun t => t.reg .r1 == 0x7FFF && pcPsr t == (0x3001, 0x0001)) = true := by decide
/-- V55. -/
theorem test_ld_status_byte_waiting : after (step (start 0xFDFF 0x0002 [] [(0xFDFF, 0x2000)] [0x41]))
    (fun t => t.reg .r0 == 0x8000 && pcPsr t == (0xFE00, 0x0004) && t.peek 0xFE00 == 0x8000 &&
      t.peek 0xFE02 == 0x0041 && t.inQ == []) = true := by decide
/-- V58. -/
theorem test_st : after (step (start 0x3000 0x0002 [(.r1, 7)] [(0x3000, 0x3202)] []))
    (fun t => t.peek 0x3003 == 0x0007 && pcPsr t == (0x3001, 0x0002)) = true := by decide
/-- V61. -/
theorem test_st_to_status : after (step (start 0xFDFF 0x0002 [(.r1, 0x1234)] [(0xFDFF, 0x3200)] [0x41]))
    (fun t => t.peek 0xFE00 == 0x1234 && t.inQ == [0x41] && pcPsr t == (0xFE00, 0x0002)) = true := by decide
/-- V63. -/
theorem test_ldi_pointer_to_itself : after (step (start 0x3000 0x0002 [] [(0x3000, 0xA002), (0x3003, 0x3003)] []))
    (fun t => t.reg .r0 == 0x3003 && pcPsr t == (0x3001, 0x0001)) = true := by decide
/-- V64. -/
theorem test_ldi_through_status : after (step (start 0x3000 0x0002 [] [(0x3000, 0xA002), (0x3003, 0xFE00)] [0x41]))
    (fun t => t.reg .r0 == 0x8000 && t.psr == 0x0004 && t.peek 0xFE02 == 0x0041 && t.inQ == []) = true := by decide
/-- V67. -/
theorem test_sti : after (step (start 0x3000 0x0002 [(.r1, 0x5555)] [(0x3000, 0xB202), (0x3003, 0x4000)] []))
    (fun t => t.peek 0x4000 == 0x5555 && t.peek 0x3003 == 0x4000 && pcPsr t == (0x3001, 0x0002)) = true := by decide
/-- V68. -/
theorem test_sti_pointer_to_itself : after (step (start 0x3000 0x0002 [(.r1, 0x5555)] [(0x3000, 0xB202), (0x3003, 0x3003)] []))
    (fun t => t.peek 0x3003 == 0x5555) = true := by decide
/-- V70. -/
theorem test_ldr_minus32 : after (step (start 0x3000 0x0002 [(.r1, 0x4020)] [(0x3000, 0x6060), (0x4000, 0x8001)] []))
    (fun t => t.reg .r0 == 0x8001 && pcPsr t == (0x3001, 0x0004)) = true := by decide
/-- V72, the destination is the base. -/
theorem test_ldr_dest_is_base : after (step (start 0x3000 0x0002 [(.r1, 0x4000)] [(0x3000, 0x6240), (0x4000, 0)] []))
    (fun t => t.reg .r1 == 0x0000 && pcPsr t == (0x3001, 0x0002)) = true := by decide
/-- V74. -/
theorem test_str : after (step (start 0x3000 0x0002 [(.r1, 0x4000), (.r7, 0x3005)] [(0x3000, 0x7E7F)] []))
    (fun t => t.peek 0x3FFF == 0x3005 && pcPsr t == (0x3001, 0x0002)) = true := by decide
/-- V78. -/
theorem test_lea_wraps : after (step (start 0x0000 0x0002 [] [(0x0000, 0xE1FF)] []))
    (fun t => t.reg .r0 == 0x0000 && pcPsr t == (0x0001, 0x0002)) = true := by decide
/-- V80, no poll. -/
theorem test_lea_names_status : after (step (start 0xFDFF 0x0002 [] [(0xFDFF, 0xE000)] [0x41]))
    (fun t => t.reg .r0 == 0xFE00 && pcPsr t == (0xFE00, 0x0004) && t.inQ == [0x41]) = true := by decide
/-- V91. -/
theorem test_jmp_ignored_bits : after (step (start 0x3000 0x0002 [(.r2, 0x4000)] [(0x3000, 0xCEBF)] []))
    (fun t => pcPsr t == (0x4000, 0x0002)) = true := by decide
/-- V95. -/
theorem test_jsr_minus1024 : after (step (start 0x3000 0x0002 [] [(0x3000, 0x4C00)] []))
    (fun t => t.reg .r7 == 0x3001 && pcPsr t == (0x2C01, 0x0002)) = true := by decide
/-- V97. -/
theorem test_jsrr : after (step (start 0x3000 0x0002 [(.r2, 0x5000)] [(0x3000, 0x4080)] []))
    (fun t => t.reg .r7 == 0x3001 && pcPsr t == (0x5000, 0x0002)) = true := by decide
/-- V98. -/
theorem test_jsrr_r7 : after (step (start 0x3000 0x0002 [(.r7, 0x5000)] [(0x3000, 0x41C0)] []))
    (fun t => t.reg .r7 == 0x3001 && pcPsr t == (0x3001, 0x0002)) = true := by decide
/-- V111. -/
theorem test_rti_stack_wraps : after (step (start 0x3000 0x0001 [(.r6, 0xFFFF)]
      [(0x3000, 0x8FFF), (0xFFFF, 0x0000), (0x0000, 0x7FFF)] []))
    (fun t => t.reg .r6 == 0x0001 && pcPsr t == (0x0000, 0x7FFF) && runs t) = true := by decide
/-- V112. -/
theorem test_rti_user_mode : after (step (start 0x3000 0x8002 [(.r6, 0x4000)]
      [(0x3000, 0x8000), (0x4000, 0x3010), (0x4001, 0x8001)] []))
    (fun t => t.reg .r6 == 0x4000 && pcPsr t == (0x3001, 0x8002) && t.run == .halted &&
      t.haltCause.code == 3) = true := by decide
/-- V114. -/
theorem test_getc_zero_byte : after (step (start 0x3000 0x0004 [] [(0x3000, 0xF020)] [0x00, 0x7A]))
    (fun t => t.reg .r0 == 0x0000 && t.reg .r7 == 0x3001 && pcPsr t == (0x3001, 0x0002) &&
      t.inQ == [0x7A] && t.outLog == []) = true := by decide
/-- V115. -/
theorem test_getc_zero_extends : after (step (start 0x3000 0x0002 [(.r0, 0xFFFF)] [(0x3000, 0xF020)] [0xFF]))
    (fun t => t.reg .r0 == 0x00FF && t.psr == 0x0001) = true := by decide
/-- V118. -/
theorem test_out : after (step (start 0x3000 0x0002 [(.r0, 0x0041)] [(0x3000, 0xFF21)] []))
    (fun t => t.outLog == [0x41] && t.reg .r7 == 0x3001 && pcPsr t == (0x3001, 0x0002)) = true := by decide
/-- V117. -/
theorem test_out_low_byte : after (step (start 0x3000 0x0002 [(.r0, 0x1241)] [(0x3000, 0xF021)] []))
    (fun t => t.outLog == [0x41]) = true := by decide
/-- V121. -/
theorem test_puts_high_bytes : after (step (start 0x3000 0x0002 [(.r0, 0x3005)]
      [(0x3000, 0xF022), (0x3005, 0x1248), (0x3006, 0x0100), (0x3007, 0)] []))
    (fun t => t.outLog == [0x48, 0x00] && t.reg .r0 == 0x3005 && t.reg .r7 == 0x3001) = true := by decide
/-- V124. -/
theorem test_puts_polls : after (step (start 0x3000 0x0002 [(.r0, 0xFDFF)]
      [(0x3000, 0xF022), (0xFDFF, 0x0041), (0xFE01, 0)] [0x51]))
    (fun t => t.outLog == [0x41, 0x00] && t.peek 0xFE00 == 0x8000 && t.peek 0xFE02 == 0x0051 &&
      t.inQ == []) = true := by decide
/-- V125. -/
theorem test_in : after (step (start 0x3000 0x0004 [] [(0x3000, 0xF023)] [0x7A]))
    (fun t => t.reg .r0 == 0x007A && t.reg .r7 == 0x3001 && pcPsr t == (0x3001, 0x0004) &&
      t.outLog == [0x7A] && t.inQ == []) = true := by decide
/-- V127. -/
theorem test_putsp_zero_low_byte_stops : after (step (start 0x3000 0x0002 [(.r0, 0x3005)]
      [(0x3000, 0xF024), (0x3005, 0x6948), (0x3006, 0x4100)] []))
    (fun t => t.outLog == [0x48, 0x69] && t.reg .r7 == 0x3001) = true := by decide
/-- V128. -/
theorem test_putsp_zero_high_byte_goes_on : after (step (start 0x3000 0x0002 [(.r0, 0x3005)]
      [(0x3000, 0xF024), (0x3005, 0x0041), (0x3006, 0x0042), (0x3007, 0xFF00)] []))
    (fun t => t.outLog == [0x41, 0x42]) = true := by decide
/-- V129, but for the message, which is free. -/
theorem test_halt : after (step (start 0x3005 0x0002 [] [(0x3005, 0xF025)] []))
    (fun t => t.reg .r7 == 0x3006 && pcPsr t == (0x3006, 0x0002) && t.run == .halted &&
      t.haltCause.code == 1) = true := by decide
/-- V131. -/
theorem test_unrecognised_trap : after (step (start 0x3000 0x0002 [] [(0x3000, 0xF0FF)] []))
    (fun t => t.reg .r7 == 0x3001 && pcPsr t == (0x3001, 0x0002) && runs t && t.outLog == []) = true := by decide
/-- V135. -/
theorem test_reserved_user_mode : after (step (start 0x3002 0x8001 [] [(0x3002, 0xDFFF)] []))
    (fun t => pcPsr t == (0x3003, 0x8001) && t.run == .halted && t.haltCause.code == 2) = true := by decide
/-- V137. -/
theorem test_fetch_at_status_byte_waiting : after (step (start 0xFE00 0x8002 [] [] [0x41]))
    (fun t => pcPsr t == (0xFE01, 0x8002) && t.peek 0xFE02 == 0x0041 && t.inQ == [] &&
      t.haltCause.code == 3) = true := by decide
/-- V138. -/
theorem test_fetch_at_status_none_waiting : after (step (start 0xFE00 0x0002 [] [(0xFE00, 0xFFFF)] []))
    (fun t => pcPsr t == (0xFE01, 0x0002) && t.peek 0xFE00 == 0x0000 && runs t) = true := by decide

/-! ### The loader -/

/-- Whether a load writes the given word at the given address. -/
def loads (bytes : List Byte) (a v : Word) : Bool :=
  match loadObject bytes State.reset with
  | .loaded t => t.peek a == v
  | .rejected _ => false

/-- V150, V154, V156. -/
theorem test_load_accepts : loads [0x00, 0x30, 0x25, 0x10] 0x3000 0x1025 = true ∧
    loads [0xFF, 0xFF, 0x34, 0x12] 0xFFFF 0x1234 = true ∧
    loads [0x00, 0xFE, 0x34, 0x12] 0xFE00 0x1234 = true := by decide
/-- V152, V153, V155. -/
theorem test_load_rejects : loadObject [0x00, 0x30, 0x25] State.reset = .rejected .oddLength ∧
    loadObject [0x00] State.reset = .rejected .tooShort ∧
    loadObject [0xFF, 0xFF, 0x34, 0x12, 0x78, 0x56] State.reset = .rejected .pastEnd := by decide

/-- The bounds of the origin range are in it and their neighbours are not (R5); the loader takes a file
outside it all the same (V156, U18). -/
theorem test_origin_range : originInRange [0x00, 0x30] = true ∧ originInRange [0xFF, 0xFD] = true ∧
    originInRange [0xFF, 0x2F] = false ∧ originInRange [0x00, 0xFE] = false ∧
    originInRange [0x00] = false ∧ loads [0x00, 0xFE, 0x34, 0x12] 0xFE00 0x1234 = true := by decide

/-- V113 under a schedule: held for two turns, and completed by the byte appended before the third. -/
theorem test_scheduled_getc : after
    (Launch.run { pc := 0x3000, psr := 0x0004, regs := RegFile.all 0, mem := Memory.empty,
                  files := [[0x00, 0x30, 0x20, 0xF0]], inQ := [], schedule := [[], [], [0x61]] })
    (fun t => t.reg .r0 == 0x0061 && t.reg .r7 == 0x3001 && pcPsr t == (0x3001, 0x0001) &&
      t.inQ == []) = true := by decide

/-- A word placed for the fetch runs as the first instruction after reset (log entry 10). -/
theorem test_placed_word_runs : after (step (State.reset.withFetchWord 16 0x1025))
    (fun t => t.reg .r0 == 0x0005 && t.pc == 0x3001) = true := by decide

/-! ### Witnesses: states and operands that meet the hypotheses of the statements, clause by clause -/

/-- A supervisor state about to run RTI; the frame it pops enters user mode (V110). -/
def rtiState : State :=
  start 0x3000 0x0002 [(.r6, 0x4000)] [(0x3000, 0x8000), (0x4000, 0x3010), (0x4001, 0x8001)] []

/-- A user-mode state whose next two words are ADD (V26's) and OUT. -/
def userState : State := start 0x3000 0x8002 [] [(0x3000, 0x1025), (0x3001, 0xF021)] []

/-- A halted state with the pc at the status address (V140). -/
def haltedState : State := halt .trapHalt (start 0xFE00 0x0002 [] [] [0x41])

/-- A state held at a GETC (V116). -/
def heldState : State := start 0x3000 0x0002 [] [(0x3000, 0xF020)] []

theorem witness_DecodeReadsBackEncode : (Instr.br true false true 0x100#9).wellFormed = true ∧
    (Instr.trapUnrecognised 0x1F#8).wellFormed = true ∧
    (Instr.trapUnrecognised 0x26#8).wellFormed = true := by decide

theorem witness_IgnoredBitsHaveNoEffect :
    (0x1042#16 ^^^ 0x105A#16) &&& ~~~ignoredBits 0x1042#16 = 0#16 ∧
    (0x4080#16 ^^^ 0x46BF#16) &&& ~~~ignoredBits 0x4080#16 = 0#16 ∧
    (0x5042#16 ^^^ 0x505A#16) &&& ~~~ignoredBits 0x5042#16 = 0#16 ∧
    (0x8000#16 ^^^ 0x8FFF#16) &&& ~~~ignoredBits 0x8000#16 = 0#16 ∧
    (0x9480#16 ^^^ 0x94BF#16) &&& ~~~ignoredBits 0x9480#16 = 0#16 ∧
    (0xC080#16 ^^^ 0xCEBF#16) &&& ~~~ignoredBits 0xC080#16 = 0#16 ∧
    (0xD000#16 ^^^ 0xDFFF#16) &&& ~~~ignoredBits 0xD000#16 = 0#16 ∧
    (0xF021#16 ^^^ 0xFF21#16) &&& ~~~ignoredBits 0xF021#16 = 0#16 := by decide

theorem witness_SignExtensionFollowsR8 : 5 ∈ [5, 6, 9, 11] ∧ 11 ∈ [5, 6, 9, 11] ∧
    (10 < 11) ∧ (11 ≤ 11 ∧ 11 < 16) ∧ (5 ≤ 15 ∧ 15 < 16) := by decide

theorem witness_StepFetchesIncrementsExecutes_halted : haltedState.run = .halted := by decide
theorem witness_StepFetchesIncrementsExecutes_running : userState.run = .running := by decide
theorem witness_StepFetchesIncrementsExecutes_result : ∃ t, step haltedState = .next t := ⟨_, rfl⟩

theorem witness_StepRunsInstructionAtPc : userState.run = .running ∧ userState.pc ≠ statusAddr ∧
    decode (userState.peek userState.pc) = .addImm .r0 .r0 5#5 := by decide

theorem witness_FetchAtStatus_byte : (start 0xFE00 0x8002 [] [] [0x41]).run = .running ∧
    (start 0xFE00 0x8002 [] [] [0x41]).pc = statusAddr ∧
    (start 0xFE00 0x8002 [] [] [0x41]).inQ = 0x41#8 :: [] := by decide
theorem witness_FetchAtStatus_none : (start 0xFE00 0x0002 [] [] []).run = .running ∧
    (start 0xFE00 0x0002 [] [] []).pc = statusAddr ∧
    (start 0xFE00 0x0002 [] [] []).inQ = [] := by decide

theorem witness_HaltedStateNeverChanges : haltedState.run = .halted := by decide

theorem witness_StoreSeenByNextFetch_address : 0xFDFF#16 ≠ statusAddr ∧ 0xFE01#16 ≠ statusAddr := by decide
/-- V59 is the state of the second clause. -/
theorem witness_StoreSeenByNextFetch_st :
    (start 0x3000 0x0002 [(.r1, 0xF025)] [(0x3000, 0x3200)] []).run = .running ∧
    (0x3000#16 ≠ statusAddr ∧ 0x3000#16 + 1#16 ≠ statusAddr) ∧
    decode ((start 0x3000 0x0002 [(.r1, 0xF025)] [(0x3000, 0x3200)] []).peek 0x3000#16) =
      .st .r1 0#9 := by decide

theorem witness_MemReadPollsOnlyStatus : 0xFE01#16 ≠ statusAddr ∧ dataAddr ≠ statusAddr := by decide
theorem witness_AccessesAreIdempotent : 0xFDFF#16 ≠ statusAddr := by decide

theorem witness_CanonicalMemoryIsUnique :
    (Memory.mk [(0x0000, 1#16), (0xFFFF, 2#16)]).wf = true ∧
    ∀ a : Word, (Memory.mk [(0x0000, 1#16), (0xFFFF, 2#16)]).read a.toNat =
      (Memory.mk [(0x0000, 1#16), (0xFFFF, 2#16)]).read a.toNat := ⟨by decide, fun _ => rfl⟩

theorem witness_FlagWriters_result : flagRegister (.not .r0 .r1) = some .r0 ∧
    ∃ t, exec (.not .r0 .r1) userState = .next t := ⟨rfl, _, rfl⟩
theorem witness_FlagWriters_other : flagRegister (.st .r1 2#9) = none ∧
    (∃ t, exec (.st .r1 2#9) userState = .next t) := ⟨rfl, _, rfl⟩
theorem witness_FlagWriters_rti_user : userState.psr.getLsbD 15 = true ∧
    ∃ t, exec .rti userState = .next t := ⟨by decide, _, rfl⟩
theorem witness_FlagWriters_rti_supervisor : rtiState.psr.getLsbD 15 = false ∧
    ∃ t, exec .rti rtiState = .next t := ⟨by decide, _, rfl⟩
theorem witness_FlagWriters_reader : (∀ n z p off, Instr.jmp .r1 ≠ .br n z p off) ∧
    (0x8007#16).getLsbD 15 = userState.psr.getLsbD 15 := ⟨nofun, by decide⟩

theorem witness_Privilege_other : Instr.trapOut ≠ .rti ∧ ∃ t, exec .trapOut userState = .next t :=
  ⟨nofun, _, rfl⟩
theorem witness_Privilege_supervisor : rtiState.psr.getLsbD 15 = false := by decide
theorem witness_Privilege_user : userState.psr.getLsbD 15 = true := by decide

theorem witness_UserModeIsForever_run : userState.psr.getLsbD 15 = true ∧
    ∃ t, Host.Core.run core 2 userState = .next t := ⟨by decide, _, rfl⟩
theorem witness_UserModeIsForever_change : after (step rtiState)
    (fun t => t.psr.getLsbD 15 != rtiState.psr.getLsbD 15) = true := by decide

theorem witness_PcAdvanceOfEveryInstruction :
    ∃ t, exec (.br true true true 0x100#9) userState = .next t := ⟨_, rfl⟩
theorem witness_RegistersWrittenByEachInstruction : ∃ t, exec (.lea .r7 1#9) userState = .next t :=
  ⟨_, rfl⟩
theorem witness_OutputAppendsInputConsumesHead :
    after (Host.Core.run core 2 userState) (fun t => t.outLog.length == 1) = true := by decide

theorem witness_HaltsInExactlyThreeWays_running : rtiState.run = .running ∧
    rtiState.haltCause = .none ∧ ∃ t, step rtiState = .next t := ⟨by decide, by decide, _, rfl⟩
theorem witness_HaltsInExactlyThreeWays_halted : haltedState.run = .halted ∧
    ∃ t, step haltedState = .next t := ⟨by decide, _, rfl⟩

theorem witness_StepKeepsInv : userState.Inv ∧ ∃ t, step userState = .next t :=
  ⟨⟨by decide, by decide⟩, _, rfl⟩
theorem witness_LaunchAndLoadMeetInv : (Memory.mk [(0xFFFF, 2#16)]).wf = true ∧ userState.Inv ∧
    ∃ t, loadObject [0xFF, 0xFF, 0x34, 0x12] userState = .loaded t :=
  ⟨by decide, ⟨by decide, by decide⟩, _, rfl⟩
theorem witness_OneFlagKeptWithoutRti : OneFlag userState.psr ∧ (∃ t, step userState = .next t) ∧
    decode (fetch userState).1 ≠ .rti := ⟨.inr (.inl (by decide)), ⟨_, rfl⟩, by decide⟩
theorem witness_ScheduledRunDeliversInput_held : step heldState = .fault .heldForInput := rfl
theorem witness_ScheduledRunDeliversInput_run : userState.Inv ∧ userState.psr.getLsbD 15 = true ∧
    ∃ t, Host.Core.run core 2 userState = .next t := ⟨⟨by decide, by decide⟩, by decide, _, rfl⟩
theorem witness_AppendedInputLiftsHold : step heldState = .fault .heldForInput := rfl

/-- One word under the mask of each instruction statement, at an end of its fields. -/
theorem witness_BranchTakenWhenFlagSelected : 0x0FFF#16 &&& 0xF000#16 = 0x0000#16 := by decide
theorem witness_AddRegisterForm : 0x1FDF#16 &&& 0xF020#16 = 0x1000#16 := by decide
theorem witness_AddImmediateForm : 0x1FFF#16 &&& 0xF020#16 = 0x1020#16 := by decide
theorem witness_AndRegisterForm : 0x5FDF#16 &&& 0xF020#16 = 0x5000#16 := by decide
theorem witness_AndImmediateForm : 0x5FFF#16 &&& 0xF020#16 = 0x5020#16 := by decide
theorem witness_NotInvertsEveryBit : 0x9FC0#16 &&& 0xF000#16 = 0x9000#16 ∧ 15 < 16 := by decide
theorem witness_LdLoadsPcRelative : 0x2FFF#16 &&& 0xF000#16 = 0x2000#16 := by decide
theorem witness_StStoresPcRelative : 0x3FFF#16 &&& 0xF000#16 = 0x3000#16 := by decide
theorem witness_LdiLoadsThroughPointer : 0xAFFF#16 &&& 0xF000#16 = 0xA000#16 := by decide
theorem witness_StiStoresThroughPointer : 0xBFFF#16 &&& 0xF000#16 = 0xB000#16 := by decide
theorem witness_LdrLoadsBasePlusOffset : 0x6FFF#16 &&& 0xF000#16 = 0x6000#16 := by decide
theorem witness_StrStoresBasePlusOffset : 0x7FFF#16 &&& 0xF000#16 = 0x7000#16 := by decide
theorem witness_LeaLoadsAddressAndFlags : 0xEFFF#16 &&& 0xF000#16 = 0xE000#16 := by decide
theorem witness_JmpAndRetLoadPc : 0xC000#16 &&& 0xF000#16 = 0xC000#16 ∧
    0xCFFF#16 &&& 0xF1C0#16 = 0xC1C0#16 := by decide
theorem witness_JsrLinksAndJumps : 0x4C00#16 &&& 0xF800#16 = 0x4800#16 := by decide
theorem witness_JsrrLinksThenReadsBase : 0x47FF#16 &&& 0xF800#16 = 0x4000#16 := by decide
theorem witness_RtiPopsOrHalts : 0x8FFF#16 &&& 0xF000#16 = 0x8000#16 ∧
    userState.psr.getLsbD 15 = true ∧ rtiState.psr.getLsbD 15 = false := by decide
theorem witness_GetcReadsByteAndSetsFlags : 0xFF20#16 &&& 0xF0FF#16 = 0xF020#16 ∧
    (start 0x3001 0x0004 [] [] [0x61]).inQ = 0x61#8 :: [] := by decide
theorem witness_OutEmitsLowByte : 0xFF21#16 &&& 0xF0FF#16 = 0xF021#16 := by decide
theorem witness_PutsFollowsItsLoop : 0xFF22#16 &&& 0xF0FF#16 = 0xF022#16 := by decide
theorem witness_InReadsAndEchoes : 0xFF23#16 &&& 0xF0FF#16 = 0xF023#16 ∧
    (start 0x3001 0x0004 [] [] [0x7A]).inQ = 0x7A#8 :: [] := by decide
theorem witness_InputTrapsHeldWithoutByte : heldState.inQ = [] := by decide
theorem witness_PutspFollowsItsLoop : 0xFF24#16 &&& 0xF0FF#16 = 0xF024#16 := by decide
theorem witness_HaltTrapEndsRun : 0xFF25#16 &&& 0xF0FF#16 = 0xF025#16 := by decide
theorem witness_UnrecognisedTrapOnlyLinks : 0xF01F#16 &&& 0xF000#16 = 0xF000#16 ∧
    ((0xF01F#16).extractLsb' 0 8).toNat < 0x20 ∧ 0x25 < ((0xF026#16).extractLsb' 0 8).toNat := by decide
theorem witness_ReservedOpcodeHalts : 0xDFFF#16 &&& 0xF000#16 = 0xD000#16 := by decide

/-- The string of V119, whose walk from FFFE wraps past the end of memory. -/
def stringState : State :=
  start 0x3001 0x0002 [(.r0, 0xFFFE)] [(0xFFFE, 0x0048), (0xFFFF, 0x0069), (0x0000, 0x0000)] []

theorem witness_PutsEmitsTerminatedString : [0x0048#16, 0x0069#16].length < 65536 ∧
    (∀ (k : Nat) (w : Word), [0x0048#16, 0x0069#16][k]? = some w →
      w ≠ 0#16 ∧ stringState.peek (stringState.reg .r0 + BitVec.ofNat 16 k) = w) ∧
    stringState.peek (stringState.reg .r0 + BitVec.ofNat 16 [0x0048#16, 0x0069#16].length) = 0#16 ∧
    ∀ k : Nat, k ≤ [0x0048#16, 0x0069#16].length →
      stringState.reg .r0 + BitVec.ofNat 16 k ≠ statusAddr := by
  refine ⟨by decide, ?_, by decide, ?_⟩
  · intro k w h
    match k, h with
    | 0, h => cases h; decide
    | 1, h => cases h; decide
  · intro k hk
    match k, hk with
    | 0, _ => decide
    | 1, _ => decide
    | 2, _ => decide

/-- The last word of memory, and addresses on either side of one word at 3000. -/
theorem witness_LoaderPlacesWords : (0xFFFF#16).toNat + [0x1234#16].length ≤ 65536 ∧
    [0x1234#16][0]? = some 0x1234#16 ∧ (0x2FFF#16).toNat < (0x3000#16).toNat ∧
    (0x3000#16).toNat + [0x1025#16].length ≤ (0x3001#16).toNat := by decide
theorem witness_LoaderRejectsBadFiles :
    ∃ e, loadObject [0xFF, 0xFF, 0x34, 0x12, 0x78, 0x56] userState = .rejected e := ⟨_, rfl⟩

end Sys2Proof.Tests
end

section
/-! PROOFS. The statements of spec/00_scope.md: sign extension (R8), and the step as a fetch with the
poll followed by the instruction (R10). -/

open Sys2Proof Sys2Proof.Machine Sys2Proof.Claims

namespace Sys2Proof.Proofs

/-! ### Sign extension -/

/-- The mask of R8 has a one at exactly the positions from `n` up. -/
theorem getLsbD_maskFrom (n : Nat) {k : Nat} (hk : k < 16) :
    (0xFFFF#16 <<< n).getLsbD k = decide (n ≤ k) := by
  have ones : 0xFFFF#16 = BitVec.allOnes 16 := by decide
  have hkn : k - n < 16 := by omega
  rw [ones, BitVec.getLsbD_shiftLeft, BitVec.getLsbD_allOnes, decide_eq_true hk,
    decide_eq_true hkn, Bool.true_and, Bool.and_true, ← decide_not]
  exact decide_eq_decide.mpr Nat.not_lt

/-- The OR with a shifted mask of R8 is the library's sign extension, at every width. -/
theorem sext_eq_signExtend {n : Nat} (f : BitVec n) : sext f = f.signExtend 16 := by
  cases hsign : f.msb with
  | false =>
    rw [sext, BitVec.signExtend_eq_setWidth_of_msb_false hsign, if_neg (Bool.eq_false_iff.mp hsign)]
  | true =>
    rw [sext, if_pos hsign]
    refine BitVec.eq_of_getLsbD_eq fun k hk => ?_
    rw [BitVec.getLsbD_or, BitVec.getLsbD_setWidth, getLsbD_maskFrom n hk,
      BitVec.getLsbD_signExtend, hsign]
    obtain below | above := Nat.lt_or_ge k n
    · simp [below]
    · simp [above, above.not_gt, hk]

theorem sext_getLsbD_low {n : Nat} (f : BitVec n) {k : Nat} (hk : k < n) (hn : n ≤ 16) :
    (sext f).getLsbD k = f.getLsbD k := by
  rw [sext_eq_signExtend, BitVec.getLsbD_signExtend, if_pos hk, decide_eq_true (hk.trans_le hn),
    Bool.true_and]

theorem sext_getLsbD_high {n : Nat} (f : BitVec n) {k : Nat} (hn : n ≤ k) (hk : k < 16) :
    (sext f).getLsbD k = f.getLsbD (n - 1) := by
  rw [sext_eq_signExtend, BitVec.getLsbD_signExtend, if_neg hn.not_gt, decide_eq_true hk,
    Bool.true_and, BitVec.msb_eq_getLsbD_last]

theorem sext_toInt {n : Nat} (f : BitVec n) (hn : n ≤ 16) : (sext f).toInt = f.toInt := by
  rw [sext_eq_signExtend, BitVec.toInt_signExtend_of_le hn]

theorem zext8_toNat (b : Byte) : (zext8 b).toNat = b.toNat :=
  BitVec.toNat_setWidth_of_le (by decide)

/-- The four field widths of R8 fit in a word. -/
theorem fieldWidth_le_word : ∀ n ∈ [5, 6, 9, 11], n ≤ 16 := by decide

/-- Settles O6: every field width fits in a word, so the facts about any width up to 16 apply. -/
theorem signExtensionFollowsR8 : Obligations.SignExtensionFollowsR8 := by
  refine ⟨fun n hn f => ?_, zext8_toNat⟩
  have hw : n ≤ 16 := fieldWidth_le_word n hn
  exact ⟨fun _ hk => sext_getLsbD_low f hk hw, fun _ hk hk' => sext_getLsbD_high f hk hk',
    sext_toInt f hw⟩

/-! ### Reads and the fetch -/

theorem readsTo_of_ne {a : Word} (h : a ≠ statusAddr) (s : State) (v : Word) (t : State) :
    ReadsTo a s v t ↔ v = s.peek a ∧ t.inQ = s.inQ ∧ MemSameBut [] s t := by
  rw [ReadsTo, if_neg h]

theorem readsTo_status_nil {s : State} (h : s.inQ = []) (v : Word) (t : State) :
    ReadsTo statusAddr s v t ↔ v = 0x0000#16 ∧ t.inQ = [] ∧ t.peek statusAddr = 0x0000#16 ∧
      MemSameBut [statusAddr] s t := by
  rw [ReadsTo, if_pos rfl, h]

theorem readsTo_status_cons {s : State} {b : Byte} {rest : List Byte} (h : s.inQ = b :: rest)
    (v : Word) (t : State) :
    ReadsTo statusAddr s v t ↔ v = 0x8000#16 ∧ t.inQ = rest ∧ t.peek statusAddr = 0x8000#16 ∧
      t.peek dataAddr = b.setWidth 16 ∧ MemSameBut [statusAddr, dataAddr] s t := by
  rw [ReadsTo, if_pos rfl, h]

/-- `ReadsTo` speaks only of the memory and the input of the state after the read. -/
theorem readsTo_congr {a v : Word} {s t u : State} (hm : u.mem = t.mem) (hq : u.inQ = t.inQ)
    (h : ReadsTo a s v t) : ReadsTo a s v u := by
  have hp : u.peek = t.peek := by
    funext b
    rw [State.peek, hm, State.peek]
  simpa only [ReadsTo, MemSameBut, hp, hq] using h

theorem memSameBut_memWrite (a v : Word) (s : State) : MemSameBut [a] s (memWrite a v s) :=
  fun _ hb => memWrite_peek_ne s v (List.ne_of_not_mem_cons hb)

/-- `MemRead` reads as R44 says: plainly at every other address, after a poll at the status address. -/
theorem memRead_readsTo (a : Word) (s : State) : ReadsTo a s (memRead a s).1 (memRead a s).2 := by
  by_cases ha : a = statusAddr
  · subst ha
    cases hq : s.inQ with
    | nil =>
      rw [memRead_status_none hq, readsTo_status_nil hq]
      exact ⟨rfl, hq, memWrite_peek_same _ _ _, memSameBut_memWrite _ _ _⟩
    | cons b rest =>
      have hread := memRead_effect statusAddr s
      rw [memRead_status_some hq] at hread ⊢
      rw [readsTo_status_cons hq]
      refine ⟨rfl, rfl, ?_, memWrite_peek_same _ _ _, fun c hc => ?_⟩
      · rw [memWrite_peek_ne _ _ statusAddr_ne_dataAddr, memWrite_peek_same]
        rfl
      · simp only [List.mem_cons, List.not_mem_nil, or_false, not_or] at hc
        exact hread.memory c hc.1 hc.2
  · rw [memRead_of_ne ha, readsTo_of_ne ha]
    exact ⟨rfl, rfl, fun _ _ => rfl⟩

theorem fetch_readsTo (s : State) : ReadsTo s.pc s (fetch s).1 (fetch s).2 := by
  rw [fetch_eq]
  exact readsTo_congr (State.setPc_mem _ _) (State.setPc_inQ _ _) (memRead_readsTo s.pc s)

theorem fetch_pc (s : State) : (fetch s).2.pc = s.pc + 1#16 := by
  rw [fetch_eq, State.setPc_pc]

/-- Besides memory, input and the pc, a fetch changes nothing. -/
theorem fetch_frame (s : State) : (fetch s).2.psr = s.psr ∧ RegsSameBut [] s (fetch s).2 ∧
    RunSame s (fetch s).2 ∧ (fetch s).2.outLog = s.outLog := by
  have hread := memRead_effect s.pc s
  rw [fetch_eq]
  exact ⟨hread.psr, fun r _ => hread.reg r, ⟨hread.run, hread.haltCause⟩, hread.outLog⟩

theorem stepResult_of_next {r : Result} {t : State} (h : r = .next t) :
    stepResult r = some t.run := by
  rw [h, stepResult]

/-- Settles O7: a running step executes in the state `fetch` leaves, whose read and frame are known. -/
theorem stepFetchesIncrementsExecutes : Obligations.StepFetchesIncrementsExecutes := by
  refine ⟨fun _ => step_halted, fun s hrun => ?_, fun _ _ => stepResult_of_next⟩
  obtain ⟨hpsr, hregs, hsame, hout⟩ := fetch_frame s
  exact ⟨(fetch s).1, (fetch s).2, fetch_readsTo s, fetch_pc s, hpsr, hregs, hsame, hout,
    step_running hrun⟩

/-- Settles O8: away from the status address the fetch changes the pc only. -/
theorem stepRunsInstructionAtPc : Obligations.StepRunsInstructionAtPc := by
  intro s i hrun hpc hdecode
  rw [step_running hrun, fetch_of_ne hpc, hdecode]

end Sys2Proof.Proofs
end

section
/-! PROOFS. The statements of spec/10_state.md. Three facts carry them: what an executed instruction
can do to every field but the status word (`exec_effect`), how it answers when the status word is
another (`exec_setPsr`), and which opcode a decoded instruction has (`opcodeNumber_decode`). -/

open Sys2Proof Sys2Proof.Machine Sys2Proof.Claims

namespace Sys2Proof.Proofs

/-! ### What an instruction can do to all but the status word -/

/-- The cause an instruction halts the core for, if it halts it (R31). -/
def haltCauseOf (i : Instr) (s : State) : Option HaltCause :=
  match i with
  | .trapHalt => some .trapHalt
  | .reserved => some .illegalOpcode
  | .rti => if s.psr.getLsbD 15 then some .privilegeViolation else none
  | _ => none

/-- `t` is `s` after an instruction that leaves the pc at `pc`, writes no register but those in
`written` and halts the core for `cause`, if for any. The status word is not spoken of. -/
structure ExecEffect (pc : Word) (written : List Reg) (cause : Option HaltCause) (s t : State) :
    Prop where
  pc : t.pc = pc
  regs : RegsSameBut written s t
  run : t.run = cause.elim s.run fun _ => .halted
  haltCause : t.haltCause = cause.getD s.haltCause
  output : ∃ emitted, t.outLog = s.outLog ++ emitted
  input : ∃ taken, s.inQ = taken ++ t.inQ
  wf : s.mem.wf = true → t.mem.wf = true

namespace ExecEffect

variable {pc : Word} {l : List Reg} {c : Option HaltCause} {s t u : State}

theorem refl (s : State) : ExecEffect s.pc [] none s s :=
  ⟨rfl, fun _ _ => rfl, rfl, rfl, ⟨[], (List.append_nil _).symm⟩, ⟨[], rfl⟩, id⟩

theorem setReg (h : ExecEffect pc l c s t) (r : Reg) (v : Word) :
    ExecEffect pc (r :: l) c s (t.setReg r v) :=
  { h with
    regs := fun _ hq => (t.setReg_reg_ne v (List.ne_of_not_mem_cons hq)).trans
      (h.regs _ (List.not_mem_of_not_mem_cons hq)) }

theorem setPc (h : ExecEffect pc l c s t) (v : Word) : ExecEffect v l c s (t.setPc v) :=
  { h with pc := rfl }

theorem setPsr (h : ExecEffect pc l c s t) (v : Word) : ExecEffect pc l c s (t.setPsr v) :=
  { h with }

theorem writeResult (h : ExecEffect pc l c s t) (dr : Reg) (v : Word) :
    ExecEffect pc (dr :: l) c s (writeResult dr v t) :=
  (h.setReg dr v).setPsr _

theorem memWrite (h : ExecEffect pc l c s t) (a v : Word) : ExecEffect pc l c s (memWrite a v t) :=
  { h with wf := fun w => memWrite_wf a v (h.wf w) }

theorem halt (h : ExecEffect pc l none s t) (cause : HaltCause) :
    ExecEffect pc l (some cause) s (halt cause t) :=
  { h with run := rfl, haltCause := rfl }

/-- A string walk after the instruction's own writes. -/
theorem walk (h : ExecEffect pc l c s t) (k : WalkEffect t u) : ExecEffect pc l c s u := by
  obtain ⟨x, hx⟩ := h.input
  obtain ⟨y, hy⟩ := k.input
  obtain ⟨e, he⟩ := h.output
  obtain ⟨f, hf⟩ := k.output
  exact ⟨k.pc.trans h.pc, fun r hr => (congrArg (·.get r) k.regs).trans (h.regs r hr),
    k.run.trans h.run, k.haltCause.trans h.haltCause, ⟨e ++ f, by rw [hf, he, List.append_assoc]⟩,
    ⟨x ++ y, by rw [hx, hy, List.append_assoc]⟩, fun w => k.wf (h.wf w)⟩

theorem read (h : ExecEffect pc l c s t) (a : Word) : ExecEffect pc l c s (memRead a t).2 :=
  h.walk (memRead_effect a t).toWalk

theorem outBytes (h : ExecEffect pc l c s t) (bs : List Byte) :
    ExecEffect pc l c s (outBytes bs t) :=
  h.walk (outBytes_effect bs t)

/-- A blocking read that takes the byte at the head of the queue. -/
theorem takeByte (h : ExecEffect pc l c s t) {b : Byte} {rest : List Byte}
    (hq : t.inQ = b :: rest) : ExecEffect pc l c s { t with inQ := rest } := by
  obtain ⟨x, hx⟩ := h.input
  exact { h with input := ⟨x ++ [b], by rw [hx, hq, List.append_assoc, List.singleton_append]⟩ }

/-- A register written twice is one register written. -/
theorem mono (h : ExecEffect pc l c s t) {l' : List Reg} (hl : l ⊆ l') : ExecEffect pc l' c s t :=
  { h with regs := fun r hr => h.regs r fun hm => hr (hl hm) }

/-- The fetch before the instruction adds a read and moves the pc, no more. -/
theorem of_fetch (h : ExecEffect pc l c (fetch s).2 t) : ExecEffect pc l c s t := by
  have k := memRead_effect s.pc s
  rw [fetch_eq] at h
  obtain ⟨x, hx⟩ := k.input
  obtain ⟨y, hy⟩ := h.input
  obtain ⟨e, he⟩ := h.output
  exact ⟨h.pc, fun r hr => (h.regs r hr).trans (k.reg r), by rw [h.run, State.setPc_run, k.run],
    by rw [h.haltCause, State.setPc_haltCause, k.haltCause],
    ⟨e, by rw [he, State.setPc_outLog, k.outLog]⟩,
    ⟨x ++ y, by rw [hx, List.append_assoc, ← hy, State.setPc_inQ]⟩, fun w => h.wf (k.wf w)⟩

end ExecEffect

theorem returnFromInterrupt_eq (s : State) :
    returnFromInterrupt s = ((popStack (popStack s).2).2.setPc (popStack s).1).setPsr
      (popStack (popStack s).2).1 := rfl

theorem ExecEffect.pop {pc : Word} {l : List Reg} {c : Option HaltCause} {s t : State}
    (h : ExecEffect pc l c s t) : ExecEffect pc (.r6 :: l) c s (popStack t).2 := by
  rw [popStack_eq]
  exact (h.read _).setReg .r6 _

theorem returnFromInterrupt_effect (s : State) :
    ExecEffect (memRead (s.reg .r6) s).1 [.r6] none s (returnFromInterrupt s) := by
  have hpops : ExecEffect s.pc [.r6, .r6] none s (popStack (popStack s).2).2 :=
    (ExecEffect.refl s).pop.pop
  rw [returnFromInterrupt_eq]
  exact ((hpops.mono (by simp)).setPc _).setPsr _

/-! The terms of the statements at the instructions whose effect splits on the state. -/

theorem pcAfter_br (n z p : Bool) (off : BitVec 9) (s : State) :
    pcAfter (.br n z p off) s = if branchTaken n z p s.psr then pcRelative off s else s.pc := by
  rw [branchTaken_eq]
  rfl

theorem pcAfter_jsrr (base : Reg) (s : State) : pcAfter (.jsrr base) s = (saveLink s).reg base :=
  (s.setReg_reg .r7 base s.pc).symm

theorem rti_terms_user {s : State} (hu : s.psr.getLsbD 15 = true) :
    pcAfter .rti s = s.pc ∧ writtenRegs .rti s = [] ∧
      haltCauseOf .rti s = some .privilegeViolation :=
  ⟨if_pos hu, if_pos hu, if_pos hu⟩

theorem rti_terms_supervisor {s : State} (hu : s.psr.getLsbD 15 = false) :
    pcAfter .rti s = (memRead (s.reg .r6) s).1 ∧ writtenRegs .rti s = [.r6] ∧
      haltCauseOf .rti s = none := by
  have hne : ¬s.psr.getLsbD 15 = true := ne_true_of_eq_false hu
  exact ⟨if_neg hne, if_neg hne, if_neg hne⟩

/-- Everything an instruction that completes can do to all but the status word. -/
theorem exec_effect {i : Instr} {s t : State} (h : exec i s = .next t) :
    ExecEffect (pcAfter i s) (writtenRegs i s) (haltCauseOf i s) s t := by
  have start := ExecEffect.refl s
  have link : ExecEffect s.pc [.r7] none s (saveLink s) := start.setReg .r7 s.pc
  cases i with
  | br n z p off =>
    cases h
    rw [pcAfter_br]
    split
    · exact start.setPc _
    · exact start
  | addReg dr _ _ => cases h; exact start.writeResult dr _
  | addImm dr _ _ => cases h; exact start.writeResult dr _
  | andReg dr _ _ => cases h; exact start.writeResult dr _
  | andImm dr _ _ => cases h; exact start.writeResult dr _
  | not dr _ => cases h; exact start.writeResult dr _
  | lea dr _ => cases h; exact start.writeResult dr _
  | ld dr _ => cases h; exact (start.read _).writeResult dr _
  | ldr dr _ _ => cases h; exact (start.read _).writeResult dr _
  | ldi dr _ => cases h; exact ((start.read _).read _).writeResult dr _
  | st _ _ => cases h; exact start.memWrite _ _
  | str _ _ _ => cases h; exact start.memWrite _ _
  | sti _ _ => cases h; exact (start.read _).memWrite _ _
  | jmp _ => cases h; exact start.setPc _
  | jsr _ => cases h; exact link.setPc _
  | jsrr base =>
    cases h
    rw [pcAfter_jsrr]
    exact link.setPc _
  | rti =>
    cases hu : s.psr.getLsbD 15 with
    | true =>
      rw [exec_rti_user hu] at h
      cases h
      obtain ⟨hpc, hregs, hcause⟩ := rti_terms_user hu
      rw [hpc, hregs, hcause]
      exact start.halt _
    | false =>
      rw [exec_rti_supervisor hu] at h
      cases h
      obtain ⟨hpc, hregs, hcause⟩ := rti_terms_supervisor hu
      rw [hpc, hregs, hcause]
      exact returnFromInterrupt_effect s
  | reserved => cases h; exact start.halt _
  | trapGetc =>
    cases hq : s.inQ with
    | nil => rw [exec_getc_held hq] at h; cases h
    | cons c rest =>
      rw [exec_getc_reads hq] at h
      cases h
      exact (link.takeByte hq).writeResult .r0 _
  | trapIn =>
    cases hq : s.inQ with
    | nil => rw [exec_in_held hq] at h; cases h
    | cons c rest =>
      rw [exec_in_reads hq] at h
      cases h
      exact (((link.outBytes inPrompt).takeByte hq).outBytes [c]).setReg .r0 _
  | trapOut => cases h; exact link.outBytes _
  | trapPuts => exact link.walk (stringWalk_effect h)
  | trapPutsp => exact link.walk (stringWalk_effect h)
  | trapHalt => cases h; exact (link.outBytes _).halt _
  | trapUnrecognised _ => cases h; exact link

/-- Everything a step of a running core can do to all but the status word. -/
theorem step_effect {s t : State} (hrun : s.run = .running) (h : step s = .next t) :
    ExecEffect (pcAfter (decode (fetch s).1) (fetch s).2)
      (writtenRegs (decode (fetch s).1) (fetch s).2)
      (haltCauseOf (decode (fetch s).1) (fetch s).2) s t :=
  (exec_effect ((step_running hrun).symm.trans h)).of_fetch

/-! ### The same instruction under another status word -/

/-- The status word after an instruction other than RTI that began with `psr` and ended in `t`. -/
def psrAfter (i : Instr) (psr : Word) (t : State) : Word :=
  match flagRegister i with
  | some dr => psrWithFlags psr (t.reg dr)
  | none => psr

theorem memRead_setPsr (a : Word) (s : State) (p : Word) :
    memRead a (s.setPsr p) = ((memRead a s).1, (memRead a s).2.setPsr p) := by
  by_cases ha : a = statusAddr
  · subst ha
    cases hq : s.inQ with
    | nil => rw [memRead_status_none (s := s.setPsr p) hq, memRead_status_none hq]; rfl
    | cons b rest => rw [memRead_status_some (s := s.setPsr p) hq, memRead_status_some hq]; rfl
  · rw [memRead_of_ne ha, memRead_of_ne ha, State.setPsr_peek]

theorem stringWalk_setPsr (stop : Word → Bool) (bytes : Word → List Byte) (fuel : Nat) (a : Word)
    (s : State) (p : Word) :
    stringWalk stop bytes fuel a (s.setPsr p) =
      mapNext (fun t => t.setPsr p) (stringWalk stop bytes fuel a s) := by
  induction fuel generalizing a s with
  | zero => rfl
  | succ fuel ih =>
    simp only [stringWalk_succ, memRead_setPsr]
    split
    · rfl
    · exact ih _ (outBytes (bytes (memRead a s).1) (memRead a s).2)

theorem writeResult_setPsr (dr : Reg) (v : Word) (s : State) (p : Word) :
    writeResult dr v (s.setPsr p) =
      (writeResult dr v s).setPsr (psrWithFlags p ((writeResult dr v s).reg dr)) := by
  rw [writeResult_reg_same]
  rfl

theorem popStack_setPsr (s : State) (p : Word) :
    popStack (s.setPsr p) = ((popStack s).1, (popStack s).2.setPsr p) := by
  rw [popStack_eq, popStack_eq, State.setPsr_reg, memRead_setPsr]
  rfl

/-- A permitted RTI reads nothing of the old status word. -/
theorem returnFromInterrupt_setPsr (s : State) (p : Word) :
    returnFromInterrupt (s.setPsr p) = returnFromInterrupt s := by
  simp only [returnFromInterrupt_eq, popStack_setPsr]
  generalize popStack (popStack s).2 = second
  rfl

/-- An instruction other than RTI does the same under any status word, and carries it along with the
flags it sets; for BR the flags must be the same. -/
theorem exec_setPsr {i : Instr} (s : State) (p : Word) (hrti : i ≠ .rti)
    (hbr : (∃ n z q off, i = .br n z q off) → flagBits p = flagBits s.psr) :
    exec i (s.setPsr p) = mapNext (fun t => t.setPsr (psrAfter i p t)) (exec i s) := by
  cases i with
  | br n z q off =>
    have hflags : branchTaken n z q p = branchTaken n z q s.psr := by
      rw [branchTaken, hbr ⟨n, z, q, off, rfl⟩, branchTaken]
    simp only [exec, execBr, State.setPsr_psr, hflags]
    split <;> rfl
  | addReg dr _ _ => exact congrArg _ (writeResult_setPsr dr _ s p)
  | addImm dr _ _ => exact congrArg _ (writeResult_setPsr dr _ s p)
  | andReg dr _ _ => exact congrArg _ (writeResult_setPsr dr _ s p)
  | andImm dr _ _ => exact congrArg _ (writeResult_setPsr dr _ s p)
  | not dr _ => exact congrArg _ (writeResult_setPsr dr _ s p)
  | lea dr _ => exact congrArg _ (writeResult_setPsr dr _ s p)
  | ld dr _ =>
    simp only [exec, execLd, memRead_setPsr]
    exact congrArg _ (writeResult_setPsr dr _ _ p)
  | ldr dr _ _ =>
    simp only [exec, execLdr, memRead_setPsr]
    exact congrArg _ (writeResult_setPsr dr _ _ p)
  | ldi dr _ =>
    simp only [exec, execLdi, memRead_setPsr]
    exact congrArg _ (writeResult_setPsr dr _ _ p)
  | sti _ _ =>
    simp only [exec, execSti, memRead_setPsr]
    rfl
  | trapGetc =>
    cases hq : s.inQ with
    | nil => rw [exec_getc_held (s := s.setPsr p) hq, exec_getc_held hq]; rfl
    | cons c rest => rw [exec_getc_reads (s := s.setPsr p) hq, exec_getc_reads hq]; rfl
  | trapIn =>
    cases hq : s.inQ with
    | nil => rw [exec_in_held (s := s.setPsr p) hq, exec_in_held hq]; rfl
    | cons c rest => rw [exec_in_reads (s := s.setPsr p) hq, exec_in_reads hq]; rfl
  | trapPuts => exact stringWalk_setPsr _ _ _ _ (saveLink s) p
  | trapPutsp => exact stringWalk_setPsr _ _ _ _ (saveLink s) p
  | rti => exact absurd rfl hrti
  | st _ _ => rfl
  | str _ _ _ => rfl
  | jmp _ => rfl
  | jsr _ => rfl
  | jsrr _ => rfl
  | reserved => rfl
  | trapOut => rfl
  | trapHalt => rfl
  | trapUnrecognised _ => rfl

theorem exec_psr {i : Instr} {s t : State} (hrti : i ≠ .rti) (h : exec i s = .next t) :
    t.psr = psrAfter i s.psr t := by
  have key : exec i s = mapNext (fun t => t.setPsr (psrAfter i s.psr t)) (exec i s) :=
    exec_setPsr s s.psr hrti fun _ => rfl
  rw [h] at key
  exact congrArg State.psr (Host.Outcome.next.inj key)

theorem psrAfter_flagRegister {i : Instr} {dr : Reg} (h : flagRegister i = some dr) (psr : Word)
    (t : State) : psrAfter i psr t = psrWithFlags psr (t.reg dr) := by
  rw [psrAfter, h]

theorem psrAfter_noFlags {i : Instr} (h : flagRegister i = none) (psr : Word) (t : State) :
    psrAfter i psr t = psr := by
  rw [psrAfter, h]

/-- An instruction either sets the flags of some value or leaves the status word alone. -/
theorem psrAfter_cases (i : Instr) (psr : Word) (t : State) :
    (∃ v, psrAfter i psr t = psrWithFlags psr v) ∨ psrAfter i psr t = psr := by
  cases h : flagRegister i with
  | some dr => exact .inl ⟨_, psrAfter_flagRegister h psr t⟩
  | none => exact .inr (psrAfter_noFlags h psr t)

/-! ### The flags of a value -/

theorem flagsOf_negative {v : Word} (h : v.getLsbD 15 = true) : flagsOf v = 0b100#16 :=
  if_pos h

theorem flagsOf_positive {v : Word} (h : v.getLsbD 15 = false) (hv : v ≠ 0#16) :
    flagsOf v = 0b001#16 := by
  rw [flagsOf, h, if_neg hv]
  rfl

/-- The three bits of the pattern of R26 are N, Z and P of the value. -/
theorem flagsOf_bits (v : Word) : (flagsOf v).getLsbD 2 = v.getLsbD 15 ∧
    (flagsOf v).getLsbD 1 = decide (v = 0#16) ∧
    (flagsOf v).getLsbD 0 = (!v.getLsbD 15 && decide (v ≠ 0#16)) := by
  cases hsign : v.getLsbD 15 with
  | true =>
    have hv : v ≠ 0#16 := by
      rintro rfl
      cases hsign
    rw [flagsOf_negative hsign, decide_eq_false hv]
    exact ⟨rfl, rfl, rfl⟩
  | false =>
    by_cases hv : v = 0#16
    · subst hv
      exact ⟨rfl, rfl, rfl⟩
    · rw [flagsOf_positive hsign hv, decide_eq_false hv, decide_eq_true hv]
      exact ⟨rfl, rfl, rfl⟩

theorem psrWithFlags_getLsbD_high (psr v : Word) {k : Nat} (hk : 3 ≤ k) :
    (psrWithFlags psr v).getLsbD k = psr.getLsbD k := by
  rw [psrWithFlags, BitVec.getLsbD_or, flagsOf_high v hk, Bool.or_false, BitVec.getLsbD_and]
  by_cases h16 : k < 16
  · have hmask : (0xFFF8#16).getLsbD k = true := by interval_cases k <;> rfl
    rw [hmask, Bool.and_true]
  · rw [BitVec.getLsbD_of_ge psr k (by omega), Bool.false_and]

/-- `setcc` clears the three flags before it sets one. -/
theorem flagBits_psrWithFlags (psr v : Word) :
    flagBits (psrWithFlags psr v) = flagBits (flagsOf v) := by
  have hmask : (0xFFF8#16).extractLsb' 0 3 = 0#3 := by decide
  rw [flagBits, psrWithFlags, BitVec.extractLsb'_or, BitVec.extractLsb'_and, hmask, BitVec.and_zero,
    BitVec.zero_or, flagBits]

theorem flagBits_getLsbD (psr : Word) {k : Nat} (hk : k < 3) :
    (flagBits psr).getLsbD k = psr.getLsbD k := by
  rw [flagBits, BitVec.getLsbD_extractLsb', decide_eq_true hk, Bool.true_and, Nat.zero_add]

theorem psrWithFlags_getLsbD_low (psr v : Word) {k : Nat} (hk : k < 3) :
    (psrWithFlags psr v).getLsbD k = (flagsOf v).getLsbD k := by
  rw [← flagBits_getLsbD _ hk, flagBits_psrWithFlags, flagBits_getLsbD _ hk]

theorem oneFlag_psrWithFlags (psr v : Word) : OneFlag (psrWithFlags psr v) := by
  rw [OneFlag, flagBits_psrWithFlags, flagsOf]
  split
  · exact .inl rfl
  · split
    · exact .inr (.inl rfl)
    · exact .inr (.inr rfl)

theorem flagsFrom_psrWithFlags (v psr : Word) : FlagsFrom v psr (psrWithFlags psr v) := by
  obtain ⟨hn, hz, hp⟩ := flagsOf_bits v
  exact ⟨(psrWithFlags_getLsbD_low psr v (by decide)).trans hn,
    (psrWithFlags_getLsbD_low psr v (by decide)).trans hz,
    (psrWithFlags_getLsbD_low psr v (by decide)).trans hp,
    fun _ hk => psrWithFlags_getLsbD_high psr v hk⟩

/-! ### The privilege bit flipped -/

theorem flagBits_flip (psr : Word) : flagBits (psr ^^^ 0x8000#16) = flagBits psr := by
  have hmask : (0x8000#16).extractLsb' 0 3 = 0#3 := by decide
  rw [flagBits, BitVec.extractLsb'_xor, hmask, BitVec.xor_zero, flagBits]

/-- Setting the flags and flipping the privilege bit commute. -/
theorem psrWithFlags_flip (psr v : Word) :
    psrWithFlags (psr ^^^ 0x8000#16) v = psrWithFlags psr v ^^^ 0x8000#16 := by
  refine BitVec.eq_of_getLsbD_eq fun k _ => ?_
  obtain hk | hk := Nat.lt_or_ge k 3
  · rw [psrWithFlags_getLsbD_low _ _ hk, ← flagBits_getLsbD (_ ^^^ _) hk, flagBits_flip,
      flagBits_getLsbD _ hk, psrWithFlags_getLsbD_low _ _ hk]
  · rw [psrWithFlags_getLsbD_high _ _ hk, BitVec.getLsbD_xor, BitVec.getLsbD_xor,
      psrWithFlags_getLsbD_high _ _ hk]

theorem psrAfter_flip (i : Instr) (psr : Word) (t : State) :
    psrAfter i (psr ^^^ 0x8000#16) t = psrAfter i psr t ^^^ 0x8000#16 := by
  cases h : flagRegister i with
  | some dr => rw [psrAfter_flagRegister h, psrAfter_flagRegister h, psrWithFlags_flip]
  | none => rw [psrAfter_noFlags h, psrAfter_noFlags h]

theorem psrAfter_getLsbD_high (i : Instr) (psr : Word) (t : State) {k : Nat} (hk : 3 ≤ k) :
    (psrAfter i psr t).getLsbD k = psr.getLsbD k := by
  obtain ⟨v, hv⟩ | hv := psrAfter_cases i psr t
  · rw [hv, psrWithFlags_getLsbD_high psr v hk]
  · rw [hv]

/-! ### The opcode of a decoded instruction -/

open Sys2Proof.Laws.EncodesOpcode in
theorem opcodeNumber_decodeTrap (v : BitVec 8) : opcodeNumber (decodeTrap v) = 0xF#4 := by
  unfold decodeTrap
  split_ifs <;> rfl

open Sys2Proof.Laws.EncodesOpcode in
/-- The decoder dispatches on the opcode field, so the field can be read off the instruction. -/
theorem opcodeNumber_decode (ir : Word) : opcodeNumber (decode ir) = opcodeField ir := by
  have field_of_toNat {k : BitVec 4} (h : (opcodeField ir).toNat = k.toNat) : k = opcodeField ir :=
    (BitVec.eq_of_toNat_eq h).symm
  unfold decode
  split
  case h_2 h | h_5 h | h_6 h => split <;> exact field_of_toNat h
  case h_16 =>
    have hmax : (opcodeField ir).toNat = 15 := by
      have hlt := (opcodeField ir).isLt
      simp only [imp_false] at *
      omega
    rw [opcodeNumber_decodeTrap]
    exact field_of_toNat hmax
  all_goals exact field_of_toNat ‹_›

theorem decodeTrap_eq_trapHalt {v : BitVec 8} (h : decodeTrap v = .trapHalt) : v = vecHalt := by
  unfold decodeTrap at h
  split_ifs at h
  assumption

/-- The bits under the mask of a row whose pattern is an opcode (R75). -/
theorem and_opcodeMask (ir : Word) : ir &&& 0xF000#16 = place 12 (opcodeField ir) := by
  refine BitVec.eq_of_getLsbD_eq fun k hk => ?_
  unfold place opcodeField
  interval_cases k <;> simp

/-- The bits under the mask of a row whose pattern is a TRAP with its vector (R75). -/
theorem and_trapMask (ir : Word) :
    ir &&& 0xF0FF#16 = place 12 (opcodeField ir) ||| place 0 (trapvect8Field ir) := by
  refine BitVec.eq_of_getLsbD_eq fun k hk => ?_
  unfold place opcodeField trapvect8Field
  interval_cases k <;> simp

theorem decode_eq_rti_iff (ir : Word) : decode ir = .rti ↔ ir &&& 0xF000#16 = 0x8000#16 := by
  refine ⟨fun h => ?_, fun h => decode_rti (opcodeField_of_match h (by decide))⟩
  rw [and_opcodeMask, ← opcodeNumber_decode, h]
  rfl

theorem decode_eq_reserved_iff (ir : Word) :
    decode ir = .reserved ↔ ir &&& 0xF000#16 = 0xD000#16 := by
  refine ⟨fun h => ?_, fun h => decode_reserved (opcodeField_of_match h (by decide))⟩
  rw [and_opcodeMask, ← opcodeNumber_decode, h]
  rfl

theorem decode_eq_trapHalt_iff (ir : Word) :
    decode ir = .trapHalt ↔ ir &&& 0xF0FF#16 = 0xF025#16 := by
  constructor
  · intro h
    have hop : opcodeField ir = 0xF#4 := by
      rw [← opcodeNumber_decode, h]
      rfl
    rw [decode_trap hop] at h
    rw [and_trapMask, hop, decodeTrap_eq_trapHalt h]
    rfl
  · intro h
    rw [decode_trap (opcodeField_of_match h (by decide)), vector_of_match h (by decide)]
    rfl

/-! ### Steps and runs -/

/-- A step either finds the core halted and changes nothing, or executes what it fetches. -/
theorem step_cases {s t : State} (h : step s = .next t) :
    (s.run = .halted ∧ t = s) ∨
      (s.run = .running ∧ exec (decode (fetch s).1) (fetch s).2 = .next t) := by
  cases hrun : s.run with
  | halted =>
    rw [step_halted hrun] at h
    exact .inl ⟨rfl, (Host.Outcome.next.inj h).symm⟩
  | running => exact .inr ⟨rfl, step_running hrun ▸ h⟩

theorem coreRun_succ {s t : State} (h : step s = .next t) (k : Nat) :
    Host.Core.run core (k + 1) s = Host.Core.run core k t := by
  have hcore : core.step s = .next t := h
  simp only [Host.Core.run, hcore]

theorem coreRun_succ_cases {k : Nat} {s t : State} (h : Host.Core.run core (k + 1) s = .next t) :
    ∃ u, step s = .next u ∧ Host.Core.run core k u = .next t := by
  simp only [Host.Core.run] at h
  split at h
  · next u hu => exact ⟨u, hu, h⟩
  · cases h
  · cases h

/-- A reflexive relation that extends back over a step holds over every run. -/
theorem coreRun_induction {R : State → State → Prop} (hrefl : ∀ s, R s s)
    (hstep : ∀ s t u, step s = .next t → R t u → R s u) {k : Nat} {s t : State}
    (h : Host.Core.run core k s = .next t) : R s t := by
  induction k generalizing s with
  | zero =>
    cases h
    exact hrefl _
  | succ k ih =>
    obtain ⟨u, hu, hrun⟩ := coreRun_succ_cases h
    exact hstep s u t hu (ih hrun)

/-- The output has only grown at its end and the input only lost bytes at its head (R33). -/
def StreamsInOrder (s t : State) : Prop :=
  (∃ bytes, t.outLog = s.outLog ++ bytes) ∧ ∃ taken, s.inQ = taken ++ t.inQ

theorem StreamsInOrder.refl (s : State) : StreamsInOrder s s :=
  ⟨⟨[], (List.append_nil _).symm⟩, [], rfl⟩

theorem StreamsInOrder.trans {s t u : State} (h : StreamsInOrder s t) (k : StreamsInOrder t u) :
    StreamsInOrder s u := by
  obtain ⟨⟨e, he⟩, x, hx⟩ := h
  obtain ⟨⟨f, hf⟩, y, hy⟩ := k
  exact ⟨⟨e ++ f, by rw [hf, he, List.append_assoc]⟩, x ++ y, by rw [hx, hy, List.append_assoc]⟩

theorem step_streams {s t : State} (h : step s = .next t) : StreamsInOrder s t := by
  obtain ⟨-, rfl⟩ | ⟨hrun, -⟩ := step_cases h
  · exact .refl t
  · have he := step_effect hrun h
    exact ⟨he.output, he.input⟩

/-! ### Halting -/

/-- The three ways to halt (R31). -/
theorem haltCauseOf_eq_some_iff {i : Instr} {s : State} {c : HaltCause} :
    haltCauseOf i s = some c ↔
      (i = .trapHalt ∧ c = .trapHalt) ∨ (i = .reserved ∧ c = .illegalOpcode) ∨
      (i = .rti ∧ s.psr.getLsbD 15 = true ∧ c = .privilegeViolation) := by
  constructor
  · intro h
    unfold haltCauseOf at h
    split at h
    · exact .inl ⟨rfl, (Option.some.inj h).symm⟩
    · exact .inr (.inl ⟨rfl, (Option.some.inj h).symm⟩)
    · split at h
      · next hu => exact .inr (.inr ⟨rfl, hu, (Option.some.inj h).symm⟩)
      · cases h
    · cases h
  · rintro (⟨rfl, rfl⟩ | ⟨rfl, rfl⟩ | ⟨rfl, hu, rfl⟩)
    · rfl
    · rfl
    · exact if_pos hu

theorem haltCauseOf_ne_none (i : Instr) (s : State) : haltCauseOf i s ≠ some .none := by
  simp [haltCauseOf_eq_some_iff]

/-- A cause is recorded exactly when the core has halted, if that was so before (R31, R32). -/
theorem ExecEffect.halted_iff {pc : Word} {l : List Reg} {c : Option HaltCause} {s t : State}
    (h : ExecEffect pc l c s t) (hc : c ≠ some .none)
    (hs : s.run = .running ↔ s.haltCause = .none) : t.run = .running ↔ t.haltCause = .none := by
  rw [h.run, h.haltCause]
  cases c with
  | none => exact hs
  | some cause =>
    have hcause : cause ≠ .none := fun e => hc (congrArg some e)
    simp [hcause]

/-! ### The obligations of spec/10_state.md -/

/-- Settles O24: a halted core keeps its state, and every executed instruction keeps both halves of
the invariant by `step_effect`. -/
theorem stepKeepsInv : Obligations.StepKeepsInv := by
  intro s t ⟨hwf, hcause⟩ h
  obtain ⟨-, rfl⟩ | ⟨hrun, -⟩ := step_cases h
  · exact ⟨hwf, hcause⟩
  · have he := step_effect hrun h
    exact ⟨he.wf hwf, he.halted_iff (haltCauseOf_ne_none _ _) hcause⟩

/-- Settles O26: the status word after is the old one or the old one with the flags of a value; the
only exception is a permitted RTI. -/
theorem oneFlagKeptWithoutRti : Obligations.OneFlagKeptWithoutRti := by
  intro s t hflag h hperm
  obtain ⟨-, rfl⟩ | ⟨hrun, he⟩ := step_cases h
  · exact hflag
  have hpsr : (fetch s).2.psr = s.psr := (fetch_frame s).1
  by_cases hrti : decode (fetch s).1 = .rti
  · cases hu : s.psr.getLsbD 15 with
    | false => exact absurd ⟨hrun, hrti, hu⟩ hperm
    | true =>
      rw [hrti, exec_rti_user (hpsr ▸ hu)] at he
      cases he
      rw [raiseFatal_psr, hpsr]
      exact hflag
  · rw [exec_psr hrti he, hpsr]
    obtain ⟨v, hv⟩ | hv := psrAfter_cases (decode (fetch s).1) s.psr t
    · rw [hv]
      exact oneFlag_psrWithFlags s.psr v
    · rw [hv]
      exact hflag

/-- Settles O10, by induction on the number of steps. -/
theorem haltedStateNeverChanges : Obligations.HaltedStateNeverChanges := by
  intro k s hs
  induction k with
  | zero => rfl
  | succ k ih => rw [coreRun_succ (step_halted hs), ih]

/-- Settles O16: `setcc` writes the status word only, by `psrWithFlags`. -/
theorem setccSetsExactlyOneFlag : Obligations.SetccSetsExactlyOneFlag := fun v s =>
  ⟨flagsFrom_psrWithFlags v s.psr, oneFlag_psrWithFlags s.psr v, rfl, fun _ _ => rfl,
    fun _ _ => rfl, ⟨rfl, rfl⟩, ⟨rfl, rfl⟩⟩

theorem popStack_readsTo (s : State) : ReadsTo (s.reg .r6) s (popStack s).1 (popStack s).2 := by
  rw [popStack_eq]
  exact readsTo_congr (State.setReg_mem _ _ _) (State.setReg_inQ _ _ _) (memRead_readsTo _ s)

/-- A permitted RTI takes the status word from the second of its two pops. -/
theorem returnFromInterrupt_readsTo (s : State) : ∃ u w, ReadsTo (s.reg .r6) s w u ∧
    ReadsTo (s.reg .r6 + 1#16) u (returnFromInterrupt s).psr (returnFromInterrupt s) := by
  have htop : (popStack s).2.reg .r6 = s.reg .r6 + 1#16 := by
    rw [popStack_eq, State.setReg_reg_same]
  have second := popStack_readsTo (popStack s).2
  rw [htop] at second
  rw [returnFromInterrupt_eq]
  generalize popStack (popStack s).2 = r at second ⊢
  exact ⟨(popStack s).2, (popStack s).1, popStack_readsTo s, readsTo_congr rfl rfl second⟩

theorem mapNext_mapNext (f g : State → State) (r : Result) :
    mapNext f (mapNext g r) = mapNext (fun t => f (g t)) r := by
  cases r <;> rfl

/-- The flags an instruction other than BR starts with show in nothing but the status word after. -/
theorem exec_forgets_psr {i : Instr} {s : State} {psr : Word}
    (hbr : ∀ n z p off, i ≠ .br n z p off) (hpriv : psr.getLsbD 15 = s.psr.getLsbD 15) :
    mapNext (fun t => t.setPsr 0#16) (exec i (s.setPsr psr)) =
      mapNext (fun t => t.setPsr 0#16) (exec i s) := by
  by_cases hrti : i = .rti
  · subst hrti
    cases hu : s.psr.getLsbD 15 with
    | true =>
      rw [exec_rti_user hu, exec_rti_user (s := s.setPsr psr) (hpriv.trans hu)]
      rfl
    | false =>
      rw [exec_rti_supervisor hu, exec_rti_supervisor (s := s.setPsr psr) (hpriv.trans hu),
        returnFromInterrupt_setPsr]
  · rw [exec_setPsr s psr hrti fun ⟨n, z, p, off, e⟩ => absurd e (hbr n z p off), mapNext_mapNext]
    rfl

/-- Settles O17: `exec_psr` names the status word after every instruction but RTI, whose two cases
have equations of their own. -/
theorem flagWritersAndReader : Obligations.FlagWritersAndReader := by
  refine ⟨fun i s t h => ⟨fun dr hdr => ?_, fun hnone hrti => ?_, ?_, ?_⟩,
    fun _ _ _ hbr hpriv => exec_forgets_psr hbr hpriv⟩
  · have hrti : i ≠ .rti := by
      rintro rfl
      cases hdr
    rw [exec_psr hrti h, psrAfter_flagRegister hdr]
    exact flagsFrom_psrWithFlags _ _
  · rw [exec_psr hrti h, psrAfter_noFlags hnone]
  · rintro rfl hu
    rw [exec_rti_user hu] at h
    cases h
    rfl
  · rintro rfl hu
    rw [exec_rti_supervisor hu] at h
    cases h
    exact returnFromInterrupt_readsTo s

/-- Settles O18: the flipped bit is carried along by `exec_setPsr`, and bit 15 is not a flag. -/
theorem privilegeConsultedOnlyByRti : Obligations.PrivilegeConsultedOnlyByRti := by
  refine ⟨fun i s hrti => ?_, fun i s t hrti h => ?_, fun s hu => ?_, fun s hu => ?_⟩
  · rw [exec_setPsr s _ hrti fun _ => flagBits_flip s.psr]
    cases h : exec i s with
    | next t => simp only [mapNext, psrAfter_flip, ← exec_psr hrti h]
    | fault _ => rfl
    | refused _ => rfl
  · rw [exec_psr hrti h, psrAfter_getLsbD_high i s.psr t (by decide)]
  · have he := returnFromInterrupt_effect s
    exact ⟨_, exec_rti_supervisor hu, he.run, he.haltCause⟩
  · exact ⟨_, exec_rti_user hu, rfl, hu⟩

/-- Settles O20: the pc is a field of `exec_effect`. -/
theorem pcAdvanceOfEveryInstruction : Obligations.PcAdvanceOfEveryInstruction :=
  ⟨fun s => by rw [fetch_pc, BitVec.toNat_add]; rfl, fun _ _ _ h => (exec_effect h).pc⟩

/-- Settles O21: the registers written are a field of `exec_effect`. -/
theorem registersWrittenByEachInstruction : Obligations.RegistersWrittenByEachInstruction :=
  ⟨fun _ _ _ h => (exec_effect h).regs, fun s r v => ⟨s.setReg_reg_same r v,
    fun _ hq => s.setReg_reg_ne v (List.ne_of_not_mem_cons hq)⟩⟩

/-- Settles O22, step by step along the run. -/
theorem outputAppendsInputConsumesHead : Obligations.OutputAppendsInputConsumesHead :=
  fun _ _ _ => coreRun_induction StreamsInOrder.refl fun _ _ _ h hrest =>
    (step_streams h).trans hrest

/-- From a running core with cause NONE, a step records a cause exactly when its instruction halts
the core for it. -/
theorem step_haltCause_iff {s t : State} (hrun : s.run = .running) (hnone : s.haltCause = .none)
    (h : step s = .next t) {c : HaltCause} (hc : c ≠ .none) :
    t.haltCause = c ↔ haltCauseOf (decode (fetch s).1) (fetch s).2 = some c := by
  rw [(step_effect hrun h).haltCause, hnone, Option.getD_eq_iff]
  simp [hc.symm]

/-- Settles O23: `step_haltCause_iff` with the three instructions that halt and the words they
decode from. -/
theorem haltsInExactlyThreeWays : Obligations.HaltsInExactlyThreeWays := by
  refine ⟨fun s t hrun hnone h => ⟨?_, ?_, ?_, ?_⟩, fun s t hhalt h => ?_,
    fun s => decide_eq_true_iff, fun _ _ => stepResult_of_next⟩
  · have key := (step_effect hrun h).halted_iff (haltCauseOf_ne_none _ _) (iff_of_true hrun hnone)
    rw [Ne, ← key]
    cases t.run <;> simp
  · rw [step_haltCause_iff hrun hnone h (by decide), haltCauseOf_eq_some_iff,
      ← decode_eq_trapHalt_iff]
    simp
  · rw [step_haltCause_iff hrun hnone h (by decide), haltCauseOf_eq_some_iff,
      ← decode_eq_reserved_iff]
    simp
  · rw [step_haltCause_iff hrun hnone h (by decide), haltCauseOf_eq_some_iff,
      ← decode_eq_rti_iff, (fetch_frame s).1]
    simp
  · rw [step_halted hhalt] at h
    cases h
    exact hhalt

/-! ### The canonical form of memory -/

/-- The first cell of a canonical list does not read as an unlisted address. -/
theorem readCells_head_ne {low a : Nat} {v : Word} {l : List (Nat × Word)}
    (hl : wfCells low ((a, v) :: l) = true) : readCells a ((a, v) :: l) ≠ unlistedWord := by
  obtain ⟨-, -, hv, -⟩ := wfCells_cons.mp hl
  rwa [readCells, if_pos rfl]

/-- Where two canonical lists read the same, the second begins no later than the first. -/
theorem head_le_of_read_eq {low a b : Nat} {v w : Word} {l k : List (Nat × Word)}
    (hl : wfCells low ((a, v) :: l) = true) (hk : wfCells low ((b, w) :: k) = true)
    (hread : readCells a ((a, v) :: l) = readCells a ((b, w) :: k)) : b ≤ a := by
  by_contra hlt
  have hfrom : wfCells b ((b, w) :: k) = true := wfCells_cons.mpr ⟨le_rfl, (wfCells_cons.mp hk).2⟩
  exact readCells_head_ne hl (hread.trans (readCells_of_lt hfrom (Nat.lt_of_not_le hlt)))

/-- Canonical lists that read the same are the same: the heads agree, and behind them every address
up to the head's is unlisted in both. -/
theorem wfCells_unique {low : Nat} {l k : List (Nat × Word)} (hl : wfCells low l = true)
    (hk : wfCells low k = true) (hread : ∀ a < memWords, readCells a l = readCells a k) : l = k := by
  induction l generalizing low k with
  | nil =>
    cases k with
    | nil => rfl
    | cons d k =>
      obtain ⟨-, hb, -, -⟩ := wfCells_cons.mp hk
      exact absurd (hread d.1 hb).symm (readCells_head_ne hk)
  | cons c l ih =>
    obtain ⟨a, v⟩ := c
    obtain ⟨-, ha, -, hl'⟩ := wfCells_cons.mp hl
    cases k with
    | nil => exact absurd (hread a ha) (readCells_head_ne hl)
    | cons d k =>
      obtain ⟨b, w⟩ := d
      obtain ⟨-, hb, -, hk'⟩ := wfCells_cons.mp hk
      obtain rfl : a = b :=
        Nat.le_antisymm (head_le_of_read_eq hk hl (hread b hb).symm)
          (head_le_of_read_eq hl hk (hread a ha))
      have hvw := hread a ha
      simp only [readCells, if_pos] at hvw
      rw [hvw, ih hl' hk' fun e he => ?_]
      by_cases hea : e = a
      · rw [hea, readCells_of_lt hl' (Nat.lt_succ_self a), readCells_of_lt hk' (Nat.lt_succ_self a)]
      · simpa only [readCells, if_neg hea] using hread e he

/-- Settles O15: every address below 65,536 is a word, so the memories' lists read the same. -/
theorem canonicalMemoryIsUnique : Obligations.CanonicalMemoryIsUnique := by
  rintro ⟨l⟩ ⟨k⟩ hl hk hread
  refine congrArg Memory.mk (wfCells_unique hl hk fun a ha => ?_)
  have hword := hread (BitVec.ofNat 16 a)
  rwa [BitVec.toNat_ofNat, Nat.mod_eq_of_lt (show a < 2 ^ 16 from ha)] at hword

/-! ### Launch and load -/

/-- An accepted load writes words at rising addresses, all inside memory (R177, R178). -/
theorem loadObject_writes {bytes : List Byte} {s t : State} (h : loadObject bytes s = .loaded t) :
    ∃ a ws, a + ws.length ≤ memWords ∧ t = { s with mem := writeWords a ws s.mem } := by
  unfold loadObject at h
  split at h
  · cases h
  · cases h
  · split at h
    · cases h
    · split at h
      · next hend =>
        cases h
        exact ⟨_, _, hend, rfl⟩
      · cases h

/-- Settles O25: reset memory lists nothing, and an accepted load writes inside memory. -/
theorem launchAndLoadMeetInv : Obligations.LaunchAndLoadMeetInv := by
  have launched : ∀ pc psr regs mem inQ, mem.wf = true → (State.launch pc psr regs mem inQ).Inv :=
    fun _ _ _ _ _ hmem => ⟨hmem, iff_of_true rfl rfl⟩
  refine ⟨launched _ _ _ _ _ reset_mem_wf, launched, fun bytes s t ⟨hwf, hcause⟩ h => ?_⟩
  obtain ⟨a, ws, hend, rfl⟩ := loadObject_writes h
  exact ⟨writeWords_wf hwf hend, hcause⟩

/-- Settles O30: the loads of a launch change memory only, and the rest is as given. -/
theorem launchStateAsGiven : Obligations.LaunchStateAsGiven :=
  ⟨fun _ _ _ _ _ => ⟨_, rfl, rfl, rfl, fun _ => rfl, fun _ => rfl, rfl, rfl, rfl, rfl⟩,
    fun l => ⟨l.start.mem, loadObjects_only_mem l.files _⟩, rfl⟩

end Sys2Proof.Proofs
end

section
/-! PROOFS. The statements of spec/20_memory.md: the access primitives (R44, R45), repeated accesses
(R51), and the fetch as a read like any other (R49, R56). -/

open Sys2Proof Sys2Proof.Machine Sys2Proof.Claims

namespace Sys2Proof.Proofs

/-! ### Repeated writes -/

theorem dropCell_dropCell (a : Nat) (l : List (Nat × Word)) :
    dropCell a (dropCell a l) = dropCell a l := by
  induction l with
  | nil => rfl
  | cons c rest ih =>
    by_cases hc : a = c.1
    · simp only [dropCell, if_pos hc, ih]
    · simp only [dropCell, if_neg hc, ih]

/-- The inserted cell is dropped again, whatever the list and its order. -/
theorem dropCell_insertCell (a : Nat) (v : Word) (l : List (Nat × Word)) :
    dropCell a (insertCell a v l) = dropCell a l := by
  induction l with
  | nil => simp only [insertCell, dropCell, if_pos]
  | cons c rest ih =>
    by_cases hlt : a < c.1
    · simp only [insertCell, if_pos hlt, dropCell, if_pos]
    · simp only [insertCell, if_neg hlt, dropCell, ih]

/-- The second of two writes to an address finds the cells the first one found, but those of the
address. No canonical form is asked of the memory. -/
theorem memoryWrite_write (m : Memory) (a : Nat) (v : Word) :
    (m.write a v).write a v = m.write a v := by
  by_cases hv : v = unlistedWord
  · simp only [Memory.write, if_pos hv, dropCell_dropCell]
  · simp only [Memory.write, if_neg hv, dropCell_insertCell, dropCell_dropCell]

theorem memWrite_memWrite (a v : Word) (s : State) :
    memWrite a v (memWrite a v s) = memWrite a v s :=
  congrArg (fun m => { s with mem := m }) (memoryWrite_write s.mem a.toNat v)

/-! ### Fetches -/

/-- A fetch from the status address is a read like any other, so it polls (R49). -/
theorem fetch_status_readsTo {s : State} (hpc : s.pc = statusAddr) :
    ReadsTo statusAddr s (fetch s).1 (fetch s).2 ∧ (fetch s).2.pc = 0xFE01#16 := by
  have hread := fetch_readsTo s
  have hnext := fetch_pc s
  rw [hpc] at hread hnext
  exact ⟨hread, hnext⟩

theorem decode_statusReady : decode 0x8000#16 = .rti := decode_rti rfl

theorem decode_statusIdle : decode 0x0000#16 = .br false false false 0#9 := decode_br rfl

/-- A BR that selects no flag is never taken (R100). -/
theorem exec_br_never (off : BitVec 9) (s : State) : exec (.br false false false off) s = .next s :=
  congrArg Host.Outcome.next (if_neg (by simp [branchTaken_eq]))

/-- A PC-relative address with offset 0 is the incremented pc (R115). -/
theorem pcRelative_zero (s : State) : pcRelative 0#9 s = s.pc := BitVec.add_zero s.pc

theorem exec_st_zero (sr : Reg) (s : State) :
    exec (.st sr 0#9) s = .next (memWrite s.pc (s.reg sr) s) :=
  congrArg (fun a => Host.Outcome.next (memWrite a (s.reg sr) s)) (pcRelative_zero s)

/-- An ST with offset 0 stores at the address of the next instruction (R56). -/
theorem step_st_zero {s : State} {sr : Reg} (hrun : s.run = .running) (hpc : s.pc ≠ statusAddr)
    (hdecode : decode (s.peek s.pc) = .st sr 0#9) :
    step s = .next (memWrite (s.pc + 1#16) (s.reg sr) (s.setPc (s.pc + 1#16))) :=
  (stepRunsInstructionAtPc s _ hrun hpc hdecode).trans (exec_st_zero sr _)

/-! ### The obligations of spec/20_memory.md -/

/-- Settles O13: the read-after-write laws give the memory, and a write keeps every other field. -/
theorem memWriteIsPlainStore : Obligations.MemWriteIsPlainStore := fun a v s =>
  ⟨memWrite_peek_same s a v, memSameBut_memWrite a v s, fun _ _ => rfl, rfl, rfl, ⟨rfl, rfl⟩,
    ⟨rfl, rfl⟩⟩

/-- Settles O14: off the status address a read changes nothing, so it repeats; a repeated write is
`memWrite_memWrite`. -/
theorem accessesAreIdempotent : Obligations.AccessesAreIdempotent := by
  refine ⟨fun a s ha => ?_, memWrite_memWrite⟩
  have hpure : (memRead a s).2 = s := by rw [memRead_of_ne ha]
  exact ⟨by rw [hpure], hpure⟩

/-- Settles O12: `memRead_readsTo` says what is read, `memRead_effect` what is left alone. -/
theorem memReadPollsOnlyStatus : Obligations.MemReadPollsOnlyStatus := by
  intro a s
  have hread := memRead_effect a s
  exact ⟨memRead_readsTo a s, hread.pc, hread.psr, fun r _ => hread.reg r,
    ⟨hread.run, hread.haltCause⟩, hread.outLog, fun ha => by rw [memRead_of_ne ha]⟩

/-- Settles O9: the word fetched is what the poll wrote, 0x8000 or 0x0000, and each decodes to a
known instruction. -/
theorem fetchAtStatusRunsPollResult : Obligations.FetchAtStatusRunsPollResult := by
  intro s hrun hpc
  obtain ⟨hread, hnext⟩ := fetch_status_readsTo hpc
  obtain ⟨hpsr, hregs, hsame, hout⟩ := fetch_frame s
  refine ⟨fun b rest hq => ?_, fun hq => ?_⟩
  · have hword : (fetch s).1 = 0x8000#16 := ((readsTo_status_cons hq _ _).mp hread).1
    rw [hword] at hread
    exact ⟨(fetch s).2, hread, hnext, hpsr, hregs,
      by rw [step_running hrun, hword, decode_statusReady]⟩
  · have hword : (fetch s).1 = 0x0000#16 := ((readsTo_status_nil hq _ _).mp hread).1
    rw [hword] at hread
    exact ⟨(fetch s).2, by rw [step_running hrun, hword, decode_statusIdle, exec_br_never],
      hread, hnext, hpsr, hregs, hsame, hout⟩

/-- Settles O11: a fetch off the status address reads the cell the store wrote, and by
`step_st_zero` the step after the ST fetches that cell. -/
theorem storeSeenByNextFetch : Obligations.StoreSeenByNextFetch := by
  refine ⟨fun s a v ha => ?_, fun s sr hrun hpc hnext hdecode => ?_⟩
  · rw [fetch_of_ne ha]
    exact memWrite_peek_same s a v
  · have hpc2 : s.pc + 1#16 + 1#16 = s.pc + 2#16 := BitVec.add_assoc s.pc 1#16 1#16
    refine ⟨_, step_st_zero hrun hpc hdecode, memWrite_peek_same _ _ _, ?_⟩
    rw [← hpc2]
    exact stepRunsInstructionAtPc _ _ hrun hnext (congrArg decode (memWrite_peek_same _ _ _))

end Sys2Proof.Proofs
end

section
/-! PROOFS. The statements of spec/30_encoding.md. Three facts carry them: a placed field is read back
where it was placed and nowhere else (`extract_or_place_same`, `extract_or_place_apart`), which bits
each opcode ignores (`ignoresBits_ignoredBits`), and a word can match only rows of its own opcode
(`matchedMnemonics_opcodeRows`). -/

open Sys2Proof Sys2Proof.Machine Sys2Proof.Claims Sys2Proof.Laws

namespace Sys2Proof.Proofs

/-! ### Fields read back from an encoded word -/

@[simp] theorem extract_place_apart {n low start m : Nat} (f : BitVec n)
    (h : low + n ≤ start ∨ start + m ≤ low) : (place low f).extractLsb' start m = 0#m :=
  h.elim (extract_place_below f) (extract_place_above f)

/-- Placing a field below or above the bits read does not change them. -/
@[simp] theorem extract_or_place_apart {n low start m : Nat} (w : Word) (f : BitVec n)
    (h : low + n ≤ start ∨ start + m ≤ low) :
    (w ||| place low f).extractLsb' start m = w.extractLsb' start m := by
  rw [BitVec.extractLsb'_or, extract_place_apart f h, BitVec.or_zero]

/-- A field placed in bits that were 0 is read back. -/
@[simp] theorem extract_or_place_same {n low : Nat} {w : Word} (f : BitVec n) (h : low + n ≤ 16)
    (hw : w.extractLsb' low n = 0#n) : (w ||| place low f).extractLsb' low n = f := by
  rw [BitVec.extractLsb'_or, hw, extract_place_same f h, BitVec.zero_or]

@[simp] theorem getElem_place {n : Nat} (low : Nat) (f : BitVec n) {k : Nat} (hk : k < 16) :
    (place low f)[k] = (decide (low ≤ k) && f.getLsbD (k - low)) := by
  rw [place, BitVec.getElem_shiftLeft]
  obtain below | above := Nat.lt_or_ge k low
  · simp [below, below.not_ge]
  · simp [above, above.not_gt]

/-! ### The vectors of TRAP -/

theorem vectorUnrecognised_iff (v : BitVec 8) : vectorUnrecognised v = true ↔
    v ≠ vecGetc ∧ v ≠ vecOut ∧ v ≠ vecPuts ∧ v ≠ vecIn ∧ v ≠ vecPutsp ∧ v ≠ vecHalt := by
  simp [vectorUnrecognised, recognisedVectors]

theorem decodeTrap_unrecognised {v : BitVec 8} (h : vectorUnrecognised v = true) :
    decodeTrap v = .trapUnrecognised v := by
  obtain ⟨hgetc, hout, hputs, hin, hputsp, hhalt⟩ := (vectorUnrecognised_iff v).mp h
  rw [decodeTrap, if_neg hgetc, if_neg hout, if_neg hputs, if_neg hin, if_neg hputsp, if_neg hhalt]

theorem decodeTrap_wellFormed (v : BitVec 8) : (decodeTrap v).wellFormed = true := by
  unfold decodeTrap
  split_ifs with hgetc hout hputs hin hputsp hhalt
  case neg => exact (vectorUnrecognised_iff v).mpr ⟨hgetc, hout, hputs, hin, hputsp, hhalt⟩
  all_goals rfl

/-- Only an instruction of the TRAP opcode can be ill formed. -/
theorem wellFormed_of_opcodeNumber_ne {i : Instr} (h : EncodesOpcode.opcodeNumber i ≠ 0xF#4) :
    i.wellFormed = true := by
  cases i with
  | trapUnrecognised => exact absurd rfl h
  | _ => rfl

/-- The encoder's word of a TRAP: the vector is dispatched on. -/
theorem decode_trapWord (v : BitVec 8) : decode (place 12 0xF#4 ||| place 0 v) = decodeTrap v := by
  have hop : opcodeField (place 12 0xF#4 ||| place 0 v) = 0xF#4 := EncodesOpcode.trapUnrecognised v
  rw [decode_trap hop, trapvect8Field, extract_or_place_same v (by decide) (by simp)]

/-! ### Bits the decoder ignores -/

/-- The table of R76: the bits `mask` are ignored in `w`, by its opcode and mode bit. -/
inductive IgnoresBits (w : Word) : Word → Prop where
  | none : IgnoresBits w 0x0000#16
  | addReg (hop : opcodeField w = 0x1#4) (hmode : w.getLsbD 5 = false) : IgnoresBits w 0x0018#16
  | jsrr (hop : opcodeField w = 0x4#4) (hmode : w.getLsbD 11 = false) : IgnoresBits w 0x063F#16
  | andReg (hop : opcodeField w = 0x5#4) (hmode : w.getLsbD 5 = false) : IgnoresBits w 0x0018#16
  | rti (hop : opcodeField w = 0x8#4) : IgnoresBits w 0x0FFF#16
  | not (hop : opcodeField w = 0x9#4) : IgnoresBits w 0x003F#16
  | jmp (hop : opcodeField w = 0xC#4) : IgnoresBits w 0x0E3F#16
  | reserved (hop : opcodeField w = 0xD#4) : IgnoresBits w 0x0FFF#16
  | trap (hop : opcodeField w = 0xF#4) : IgnoresBits w 0x0F00#16

theorem ignoresBits_ignoredBits (w : Word) : IgnoresBits w (ignoredBits w) := by
  have field {k : BitVec 4} (h : (w.extractLsb' 12 4).toNat = k.toNat) : opcodeField w = k :=
    BitVec.eq_of_toNat_eq h
  unfold ignoredBits
  split
  case h_1 h =>
    split
    · exact .none
    · exact .addReg (field h) (Bool.eq_false_iff.mpr ‹_›)
  case h_2 h =>
    split
    · exact .none
    · exact .jsrr (field h) (Bool.eq_false_iff.mpr ‹_›)
  case h_3 h =>
    split
    · exact .none
    · exact .andReg (field h) (Bool.eq_false_iff.mpr ‹_›)
  case h_4 h => exact .rti (field h)
  case h_5 h => exact .not (field h)
  case h_6 h => exact .jmp (field h)
  case h_7 h => exact .reserved (field h)
  case h_8 h => exact .trap (field h)
  case h_9 => exact .none

theorem IgnoresBits.opcode_kept {w mask : Word} (h : IgnoresBits w mask) :
    mask.extractLsb' 12 4 = 0#4 := by
  cases h <;> rfl

section

variable {w v mask : Word} (h : (w ^^^ v) &&& ~~~mask = 0#16)

include h

/-- Words that differ in the bits of `mask` only agree in every other bit. -/
theorem getLsbD_eq_of_differ_in {k : Nat} (hk : k < 16) (hmask : mask.getLsbD k = false) :
    v.getLsbD k = w.getLsbD k := by
  have hbit := congrArg (BitVec.getLsbD · k) h
  simp only [BitVec.getLsbD_and, BitVec.getLsbD_xor, BitVec.getLsbD_not, hmask, hk] at hbit
  refine Eq.symm ?_
  simpa using hbit

theorem extract_eq_of_differ_in {start m : Nat} (hfit : start + m ≤ 16)
    (hmask : mask.extractLsb' start m = 0#m) : v.extractLsb' start m = w.extractLsb' start m := by
  refine BitVec.eq_of_getLsbD_eq fun i hi => ?_
  have hbit : mask.getLsbD (start + i) = false := by
    simpa [hi] using congrArg (BitVec.getLsbD · i) hmask
  rw [BitVec.getLsbD_extractLsb', BitVec.getLsbD_extractLsb',
    getLsbD_eq_of_differ_in h (by omega) hbit]

theorem eq_of_differ_in_none (hmask : mask = 0#16) : v = w :=
  BitVec.eq_of_getLsbD_eq fun _ hk =>
    getLsbD_eq_of_differ_in h hk (by rw [hmask, BitVec.getLsbD_zero])

theorem decode_eq_of_differ_in (hmask : IgnoresBits w mask) : decode v = decode w := by
  have hopv : opcodeField v = opcodeField w :=
    extract_eq_of_differ_in h (by decide) hmask.opcode_kept
  cases hmask with
  | none => rw [eq_of_differ_in_none h rfl]
  | addReg hop hmode =>
    rw [decode_add hop, decode_add (hopv.trans hop),
      getLsbD_eq_of_differ_in h (by decide) (by decide), hmode]
    simp (disch := decide) [regField9, regField6, regField0, extract_eq_of_differ_in h]
  | andReg hop hmode =>
    rw [decode_and hop, decode_and (hopv.trans hop),
      getLsbD_eq_of_differ_in h (by decide) (by decide), hmode]
    simp (disch := decide) [regField9, regField6, regField0, extract_eq_of_differ_in h]
  | jsrr hop hmode =>
    rw [decode_jsr hop, decode_jsr (hopv.trans hop),
      getLsbD_eq_of_differ_in h (by decide) (by decide), hmode]
    simp (disch := decide) [regField6, extract_eq_of_differ_in h]
  | rti hop => rw [decode_rti hop, decode_rti (hopv.trans hop)]
  | not hop =>
    rw [decode_not hop, decode_not (hopv.trans hop)]
    simp (disch := decide) only [regField9, regField6, extract_eq_of_differ_in h]
  | jmp hop =>
    rw [decode_jmp hop, decode_jmp (hopv.trans hop)]
    simp (disch := decide) only [regField6, extract_eq_of_differ_in h]
  | reserved hop => rw [decode_reserved hop, decode_reserved (hopv.trans hop)]
  | trap hop =>
    rw [decode_trap hop, decode_trap (hopv.trans hop)]
    simp (disch := decide) only [trapvect8Field, extract_eq_of_differ_in h]

end

/-! ### Rows of the opcode table -/

/-- The mnemonics of the rows that match a word. -/
def matchedMnemonics (rows : List OpcodeRow) (w : Word) : List String :=
  (rows.filter fun row => row.matchesWord w).map fun row => row.mnemonic

/-- The rows of the opcode table whose pattern has the opcode `k`. -/
def rowsOfOpcode (k : BitVec 4) : List OpcodeRow :=
  opcodeRows.filter fun row => opcodeField row.pattern == k

theorem opcodeField_mask_of_mem : ∀ row ∈ opcodeRows, opcodeField row.mask = 0xF#4 := by decide

/-- Only rows of a word's own opcode can match it. -/
theorem matchedMnemonics_opcodeRows (w : Word) :
    matchedMnemonics opcodeRows w = matchedMnemonics (rowsOfOpcode (opcodeField w)) w := by
  rw [matchedMnemonics, matchedMnemonics, rowsOfOpcode, List.filter_filter]
  refine congrArg _ (List.filter_congr fun row hrow => ?_)
  cases hmatch : row.matchesWord w with
  | false => rfl
  | true =>
    have hop := opcodeField_of_match (eq_of_beq hmatch) (opcodeField_mask_of_mem row hrow)
    rw [hop, beq_self_eq_true, Bool.and_true]

/-- Bits that no row examines can be cleared before matching. -/
theorem matchedMnemonics_and_mask {rows : List OpcodeRow} (w m : Word)
    (h : ∀ row ∈ rows, m &&& row.mask = row.mask) :
    matchedMnemonics rows (w &&& m) = matchedMnemonics rows w := by
  rw [matchedMnemonics, matchedMnemonics]
  refine congrArg _ (List.filter_congr fun row hrow => ?_)
  rw [OpcodeRow.matchesWord, OpcodeRow.matchesWord, BitVec.and_assoc, h row hrow]

/-- Rows that examine the opcode and one mode bit match by these alone. -/
theorem matchedMnemonics_modeBit {rows : List OpcodeRow} {w : Word} (b : Nat)
    (h : ∀ row ∈ rows, (0xF000#16 ||| BitVec.twoPow 16 b) &&& row.mask = row.mask) :
    matchedMnemonics rows w = matchedMnemonics rows
      (place 12 (opcodeField w) ||| if w.getLsbD b then BitVec.twoPow 16 b else 0#16) := by
  rw [← matchedMnemonics_and_mask w _ h, BitVec.and_or_distrib_left, and_opcodeMask,
    BitVec.and_twoPow]

theorem matchedMnemonics_add {w : Word} (hop : opcodeField w = 0x1#4) :
    matchedMnemonics (rowsOfOpcode 0x1#4) w = [(decode w).mnemonic] := by
  rw [matchedMnemonics_modeBit 5 (by decide), hop, decode_add hop]
  cases w.getLsbD 5 <;> rfl

theorem matchedMnemonics_jsr {w : Word} (hop : opcodeField w = 0x4#4) :
    matchedMnemonics (rowsOfOpcode 0x4#4) w = [(decode w).mnemonic] := by
  rw [matchedMnemonics_modeBit 11 (by decide), hop, decode_jsr hop]
  cases w.getLsbD 11 <;> rfl

theorem matchedMnemonics_and {w : Word} (hop : opcodeField w = 0x5#4) :
    matchedMnemonics (rowsOfOpcode 0x5#4) w = [(decode w).mnemonic] := by
  rw [matchedMnemonics_modeBit 5 (by decide), hop, decode_and hop]
  cases w.getLsbD 5 <;> rfl

/-- The six recognised vectors and the six rows of the complement share out the 256 vectors (R75). -/
theorem matchedMnemonics_vector : ∀ v : BitVec 8,
    matchedMnemonics (rowsOfOpcode 0xF#4) (place 12 0xF#4 ||| place 0 v) =
      [(decodeTrap v).mnemonic] := by decide

theorem matchedMnemonics_trap {w : Word} (hop : opcodeField w = 0xF#4) :
    matchedMnemonics (rowsOfOpcode 0xF#4) w = [(decode w).mnemonic] := by
  rw [← matchedMnemonics_and_mask w 0xF0FF#16 (by decide), and_trapMask, hop, decode_trap hop,
    matchedMnemonics_vector]

/-- The opcodes with one row each: those but ADD, JSR, AND and TRAP. -/
def singleRowOpcodes : List (BitVec 4) :=
  [0x0#4, 0x2#4, 0x3#4, 0x6#4, 0x7#4, 0x8#4, 0x9#4, 0xA#4, 0xB#4, 0xC#4, 0xD#4, 0xE#4]

theorem rowsOfOpcode_single (i : Instr) (h : EncodesOpcode.opcodeNumber i ∈ singleRowOpcodes) :
    rowsOfOpcode (EncodesOpcode.opcodeNumber i) =
      [⟨i.mnemonic, place 12 (EncodesOpcode.opcodeNumber i), 0xF000#16⟩] := by
  cases i with
  | addReg | addImm | jsr | jsrr | andReg | andImm | trapGetc | trapOut | trapPuts | trapIn |
    trapPutsp | trapHalt | trapUnrecognised => exact absurd h (of_decide_eq_false rfl)
  | _ => rfl

theorem matchedMnemonics_single {w : Word} (hop : opcodeField w ∈ singleRowOpcodes) :
    matchedMnemonics (rowsOfOpcode (opcodeField w)) w = [(decode w).mnemonic] := by
  have hmatch : w &&& 0xF000#16 = place 12 (opcodeField w) := and_opcodeMask w
  rw [← opcodeNumber_decode] at hop hmatch ⊢
  rw [rowsOfOpcode_single _ hop]
  simp [matchedMnemonics, OpcodeRow.matchesWord, hmatch]

theorem opcode_cases : ∀ k : BitVec 4, k = 0x1#4 ∨ k = 0x4#4 ∨ k = 0x5#4 ∨ k = 0xF#4 ∨
    k ∈ singleRowOpcodes := by
  decide

/-! ### The obligations of spec/30_encoding.md -/

/-- Settles O1: the encoder's opcode selects the decoder lemma, and each field is read
back from where it was placed. -/
theorem decodeReadsBackEncode : Obligations.DecodeReadsBackEncode := by
  intro i hwf
  cases i with
  | br n z p off =>
    rw [decode_br (EncodesOpcode.br n z p off)]
    simp [encode, offset9Field]
  | addReg dr sr1 sr2 =>
    rw [decode_add (EncodesOpcode.addReg dr sr1 sr2)]
    simp [encode, regField9, regField6, regField0]
  | addImm dr sr1 imm =>
    rw [decode_add (EncodesOpcode.addImm dr sr1 imm)]
    simp [encode, regField9, regField6, imm5Field]
  | ld dr off =>
    rw [decode_ld (EncodesOpcode.ld dr off)]
    simp [encode, regField9, offset9Field]
  | st sr off =>
    rw [decode_st (EncodesOpcode.st sr off)]
    simp [encode, regField9, offset9Field]
  | jsr off =>
    rw [decode_jsr (EncodesOpcode.jsr off)]
    simp [encode, offset11Field]
  | jsrr base =>
    rw [decode_jsr (EncodesOpcode.jsrr base)]
    simp [encode, regField6]
  | andReg dr sr1 sr2 =>
    rw [decode_and (EncodesOpcode.andReg dr sr1 sr2)]
    simp [encode, regField9, regField6, regField0]
  | andImm dr sr1 imm =>
    rw [decode_and (EncodesOpcode.andImm dr sr1 imm)]
    simp [encode, regField9, regField6, imm5Field]
  | ldr dr base off =>
    rw [decode_ldr (EncodesOpcode.ldr dr base off)]
    simp [encode, regField9, regField6, offset6Field]
  | str sr base off =>
    rw [decode_str (EncodesOpcode.str sr base off)]
    simp [encode, regField9, regField6, offset6Field]
  | rti => exact decode_rti EncodesOpcode.rti
  | not dr sr =>
    rw [decode_not (EncodesOpcode.not dr sr)]
    simp [encode, regField9, regField6]
  | ldi dr off =>
    rw [decode_ldi (EncodesOpcode.ldi dr off)]
    simp [encode, regField9, offset9Field]
  | sti sr off =>
    rw [decode_sti (EncodesOpcode.sti sr off)]
    simp [encode, regField9, offset9Field]
  | jmp base =>
    rw [decode_jmp (EncodesOpcode.jmp base)]
    simp [encode, regField6]
  | reserved => exact decode_reserved EncodesOpcode.reserved
  | lea dr off =>
    rw [decode_lea (EncodesOpcode.lea dr off)]
    simp [encode, regField9, offset9Field]
  | trapGetc => exact decode_trapWord vecGetc
  | trapOut => exact decode_trapWord vecOut
  | trapPuts => exact decode_trapWord vecPuts
  | trapIn => exact decode_trapWord vecIn
  | trapPutsp => exact decode_trapWord vecPutsp
  | trapHalt => exact decode_trapWord vecHalt
  | trapUnrecognised v => exact (decode_trapWord v).trans (decodeTrap_unrecognised hwf)

/-- Settles O2: only a TRAP could decode to an ill-formed instruction, and its vector is checked
against the recognised six. -/
theorem everyWordDecodesWellFormed : Obligations.EveryWordDecodesWellFormed := by
  intro w
  constructor
  · by_cases hop : opcodeField w = 0xF#4
    · rw [decode_trap hop]
      exact decodeTrap_wellFormed _
    · exact wellFormed_of_opcodeNumber_ne (opcodeNumber_decode w ▸ hop)
  · rw [decodeTableWord, if_pos ⟨le_rfl, w.isLt⟩, BitVec.ofNat_toNat, BitVec.setWidth_eq]

/-- Settles O3: of the rows of the word's opcode, the mode bit or the vector selects one. -/
theorem everyWordMatchesExactlyOneRow : Obligations.EveryWordMatchesExactlyOneRow := by
  intro w
  refine (matchedMnemonics_opcodeRows w).trans ?_
  obtain hop | hop | hop | hop | hop := opcode_cases (opcodeField w)
  · exact hop ▸ matchedMnemonics_add hop
  · exact hop ▸ matchedMnemonics_jsr hop
  · exact hop ▸ matchedMnemonics_and hop
  · exact hop ▸ matchedMnemonics_trap hop
  · exact matchedMnemonics_single hop

/-- Settles O4: the two words decode alike, so they execute alike. -/
theorem ignoredBitsHaveNoEffect : Obligations.IgnoredBitsHaveNoEffect := by
  intro w v h
  have hdecode : decode v = decode w := decode_eq_of_differ_in h (ignoresBits_ignoredBits w)
  exact ⟨hdecode, fun s => by rw [hdecode]⟩

/-- Settles O5: each word's opcode selects its decoder lemma. -/
theorem sampleWordsDecode : Obligations.SampleWordsDecode :=
  ⟨decode_add rfl, decode_br rfl, decode_and rfl, decode_ldi rfl, decode_str rfl, decode_not rfl,
    decode_jsr rfl, decode_jsr rfl, decode_rti rfl, decode_reserved rfl, decode_jmp rfl,
    decode_trap rfl, decode_trap rfl⟩

end Sys2Proof.Proofs
end

section
/-! PROOFS. The statement of spec/40_branch.md (R100). One fact carries it: BR only ever rewrites the
pc (`exec_br`). -/

open Sys2Proof Sys2Proof.Machine Sys2Proof.Claims

namespace Sys2Proof.Proofs

/-- Taken or not, BR sets the pc and does nothing more; not taken, it sets the pc to itself (R100). -/
theorem exec_br (n z p : Bool) (off : BitVec 9) (s : State) :
    exec (.br n z p off) s = .next (s.setPc (pcAfter (.br n z p off) s)) := by
  rw [pcAfter_br]
  refine congrArg Host.Outcome.next ?_
  split
  · rfl
  · rfl

/-- Settles O31: the opcode selects BR's decoder lemma, and the pc BR sets is the one `pcAfter` tells
flag by flag. -/
theorem branchTakenWhenFlagSelected : Obligations.BranchTakenWhenFlagSelected := by
  refine ⟨fun _ h => decode_br (opcodeField_of_match h (by decide)), fun n z p off s => ?_,
    exec_br_never⟩
  exact ⟨s.setPc (pcAfter (.br n z p off) s), exec_br n z p off s, rfl, fun _ _ => rfl, rfl,
    fun _ _ => rfl, ⟨rfl, rfl⟩, ⟨rfl, rfl⟩⟩

end Sys2Proof.Proofs
end

section
/-! PROOFS. The statements of spec/41_operate.md (R105 to R109). Each operate instruction ends in
`writeResult`, of which `resultIn_writeResult` says the whole effect; what is left to each is the row
its words match and the arithmetic of its result. -/

open Sys2Proof Sys2Proof.Machine Sys2Proof.Claims

namespace Sys2Proof.Proofs

/-- The end of every operate instruction: the result and its flags, and nothing else (R25). -/
theorem resultIn_writeResult (dr : Reg) (v : Word) (s : State) :
    ResultIn dr v s (writeResult dr v s) :=
  ⟨writeResult_reg_same s dr v, fun _ hq => writeResult_reg_ne s v (List.ne_of_not_mem_cons hq),
    flagsFrom_psrWithFlags v s.psr, rfl, fun _ _ => rfl, ⟨rfl, rfl⟩, ⟨rfl, rfl⟩⟩

/-! ### The results -/

/-- Adding the extended immediate adds the signed number it stands for. -/
theorem add_sext_eq_ofInt {n : Nat} (x : Word) (f : BitVec n) (hn : n ≤ 16) :
    x + sext f = BitVec.ofInt 16 (x.toInt + f.toInt) := by
  rw [← sext_toInt f hn, BitVec.ofInt_add, BitVec.ofInt_toInt, BitVec.ofInt_toInt]

/-- Past the immediate's bit 4 the mask repeats it. -/
theorem getLsbD_and_sext5 (x : Word) (imm : BitVec 5) (k : Nat) :
    (x &&& sext imm).getLsbD k = (x.getLsbD k && imm.getLsbD (min k 4)) := by
  rw [BitVec.getLsbD_and]
  obtain hlow | hhigh := Nat.lt_or_ge k 5
  · rw [sext_getLsbD_low imm hlow (by decide), min_eq_left (Nat.le_of_lt_succ hlow)]
  · obtain hk | hk := Nat.lt_or_ge k 16
    · rw [sext_getLsbD_high imm hhigh hk, min_eq_right (by omega)]
    · rw [BitVec.getLsbD_of_ge x k hk, Bool.false_and, Bool.false_and]

theorem getLsbD_xor_ffff (x : Word) {k : Nat} (hk : k < 16) :
    (x ^^^ 0xFFFF#16).getLsbD k = !x.getLsbD k := by
  have ones : 0xFFFF#16 = BitVec.allOnes 16 := by decide
  rw [ones, BitVec.xor_allOnes, BitVec.getLsbD_not, decide_eq_true hk, Bool.true_and]

/-! ### The obligations of spec/41_operate.md -/

/-- Settles O32: bit 5 clear selects the register form, and `+` on words is the sum modulo 2^16. -/
theorem addRegisterForm : Obligations.AddRegisterForm := by
  refine ⟨fun ir h => ?_, fun dr a b s => ⟨_, rfl, ?_⟩⟩
  · rw [decode_add (opcodeField_of_match h (by decide)), bit_of_match (k := 5) h (by decide)]
    rfl
  · rw [writeResult_reg_same]
    exact ⟨BitVec.toNat_add _ _, resultIn_writeResult _ _ s⟩

/-- Settles O33: bit 5 set selects the immediate form, whose sum is `add_sext_eq_ofInt`. -/
theorem addImmediateForm : Obligations.AddImmediateForm := by
  refine ⟨fun ir h => ?_, fun dr a imm s => ⟨_, rfl, ?_⟩⟩
  · rw [decode_add (opcodeField_of_match h (by decide)), bit_of_match (k := 5) h (by decide)]
    rfl
  · rw [writeResult_reg_same]
    exact ⟨add_sext_eq_ofInt _ imm (by decide), resultIn_writeResult _ _ s⟩

/-- Settles O34: bit 5 clear selects the register form, and `&&&` on words goes bit by bit. -/
theorem andRegisterForm : Obligations.AndRegisterForm := by
  refine ⟨fun ir h => ?_, fun dr a b s => ⟨_, rfl, ?_⟩⟩
  · rw [decode_and (opcodeField_of_match h (by decide)), bit_of_match (k := 5) h (by decide)]
    rfl
  · rw [writeResult_reg_same]
    exact ⟨fun _ => BitVec.getLsbD_and, resultIn_writeResult _ _ s⟩

/-- Settles O35: bit 5 set selects the immediate form, whose mask is `getLsbD_and_sext5`. -/
theorem andImmediateForm : Obligations.AndImmediateForm := by
  refine ⟨fun ir h => ?_, fun dr a imm s => ⟨_, rfl, ?_⟩⟩
  · rw [decode_and (opcodeField_of_match h (by decide)), bit_of_match (k := 5) h (by decide)]
    rfl
  · rw [writeResult_reg_same]
    exact ⟨getLsbD_and_sext5 _ imm, resultIn_writeResult _ _ s⟩

/-- Settles O36: the opcode selects NOT, and the XOR with sixteen ones inverts each bit. -/
theorem notInvertsEveryBit : Obligations.NotInvertsEveryBit := by
  refine ⟨fun _ h => decode_not (opcodeField_of_match h (by decide)), fun dr a s => ⟨_, rfl, ?_⟩⟩
  rw [writeResult_reg_same]
  exact ⟨fun _ hk => getLsbD_xor_ffff _ hk, resultIn_writeResult _ _ s⟩

end Sys2Proof.Proofs
end

section
/-! PROOFS. The statements of spec/42_load_store.md (R116 to R122). A load ends in `writeResult` after
one or two reads, of which `readsTo_writeResult` and `loadedIn_writeResult` say the whole effect; a
store ends in `memWrite`, whose whole effect is `memWriteIsPlainStore`. -/

open Sys2Proof Sys2Proof.Machine Sys2Proof.Claims

namespace Sys2Proof.Proofs

/-! ### The end of every load -/

/-- Writing the destination and the flags leaves memory and input as the read left them (R115 c). -/
theorem readsTo_writeResult {a v : Word} {s t : State} (h : ReadsTo a s v t) (dr : Reg) (w : Word) :
    ReadsTo a s v (writeResult dr w t) :=
  readsTo_congr (writeResult_mem t dr w) (writeResult_inQ t dr w) h

/-- Whatever was read before, a load changes only the destination and the flags besides memory and
input (R25). -/
theorem loadedIn_writeResult {s t : State} (h : ReadEffect s t) (dr : Reg) (v : Word) :
    LoadedIn dr v s (writeResult dr v t) := by
  obtain ⟨hval, hregs, hflags, hpc, -, ⟨hrun, hcause⟩, -, hout⟩ := resultIn_writeResult dr v t
  exact ⟨hval, fun q hq => (hregs q hq).trans (h.reg q), h.psr ▸ hflags, hpc.trans h.pc,
    ⟨hrun.trans h.run, hcause.trans h.haltCause⟩, hout.trans h.outLog⟩

/-- One read and then the destination and the flags: the whole of LD and LDR past the address. -/
theorem load_effect (dr : Reg) (a : Word) (s : State) :
    ReadsTo a s (memRead a s).1 (writeResult dr (memRead a s).1 (memRead a s).2) ∧
      LoadedIn dr (memRead a s).1 s (writeResult dr (memRead a s).1 (memRead a s).2) :=
  ⟨readsTo_writeResult (memRead_readsTo a s) dr _, loadedIn_writeResult (memRead_effect a s) dr _⟩

/-! ### The obligations of spec/42_load_store.md -/

/-- Settles O37: LD is one load from the pc-relative address. -/
theorem ldLoadsPcRelative : Obligations.LdLoadsPcRelative :=
  ⟨fun _ h => decode_ld (opcodeField_of_match h (by decide)),
    fun dr off s => ⟨_, _, rfl, load_effect dr (pcRelative off s) s⟩⟩

/-- Settles O38: ST is one plain store at the pc-relative address. -/
theorem stStoresPcRelative : Obligations.StStoresPcRelative :=
  ⟨fun _ h => decode_st (opcodeField_of_match h (by decide)),
    fun sr off s => ⟨rfl, _, rfl, memWriteIsPlainStore (pcRelative off s) (s.reg sr) s⟩⟩

/-- Settles O39: the second read starts in the state `p.2` the pointer's read leaves, and both reads
together are a `ReadEffect`. -/
theorem ldiLoadsThroughPointer : Obligations.LdiLoadsThroughPointer := by
  refine ⟨fun _ h => decode_ldi (opcodeField_of_match h (by decide)), fun dr off s => ?_⟩
  let p := memRead (pcRelative off s) s
  have hboth : ReadEffect s (memRead p.1 p.2).2 :=
    (memRead_effect (pcRelative off s) s).trans (memRead_effect p.1 p.2)
  exact ⟨_, p.2, p.1, _, rfl, memRead_readsTo (pcRelative off s) s,
    readsTo_writeResult (memRead_readsTo p.1 p.2) dr _, loadedIn_writeResult hboth dr _⟩

/-- Settles O40: the store is plain in the state `p.2` the pointer's read leaves, in which SR and all
else but memory and input are still those of the start. -/
theorem stiStoresThroughPointer : Obligations.StiStoresThroughPointer := by
  refine ⟨fun _ h => decode_sti (opcodeField_of_match h (by decide)), fun sr off s => ?_⟩
  let p := memRead (pcRelative off s) s
  have hread : ReadEffect s p.2 := memRead_effect (pcRelative off s) s
  obtain ⟨hcell, hmem, hregs, hpsr, hpc, ⟨hrun, hcause⟩, hin, hout⟩ :=
    memWriteIsPlainStore p.1 (p.2.reg sr) p.2
  exact ⟨_, p.2, p.1, rfl, memRead_readsTo (pcRelative off s) s, rfl, hcell.trans (hread.reg sr),
    hmem, fun q hq => (hregs q hq).trans (hread.reg q), hpsr.trans hread.psr, hpc.trans hread.pc,
    ⟨hrun.trans hread.run, hcause.trans hread.haltCause⟩, hin, hout.trans hread.outLog⟩

/-- Settles O41: LDR is one load from base plus offset, the base read before DR is written. -/
theorem ldrLoadsBasePlusOffset : Obligations.LdrLoadsBasePlusOffset :=
  ⟨fun _ h => decode_ldr (opcodeField_of_match h (by decide)),
    fun dr base off s => ⟨_, _, rfl, load_effect dr (basePlus base off s) s⟩⟩

/-- Settles O42: STR is one plain store at base plus offset. -/
theorem strStoresBasePlusOffset : Obligations.StrStoresBasePlusOffset :=
  ⟨fun _ h => decode_str (opcodeField_of_match h (by decide)),
    fun sr base off s => ⟨rfl, _, rfl, memWriteIsPlainStore (basePlus base off s) (s.reg sr) s⟩⟩

/-- Settles O43: LEA writes the address itself, with no read before it. -/
theorem leaLoadsAddressAndFlags : Obligations.LeaLoadsAddressAndFlags :=
  ⟨fun _ h => decode_lea (opcodeField_of_match h (by decide)),
    fun dr off s => ⟨_, rfl, resultIn_writeResult dr (pcRelative off s) s⟩⟩

end Sys2Proof.Proofs
end

section
/-! PROOFS. The statements of spec/43_jump.md (R125 to R128). A jump ends in `setPc`, with or without
the link written before it; `jumpedTo_setPc` and `jumpedTo_link_setPc` say the whole effect of each. -/

open Sys2Proof Sys2Proof.Machine Sys2Proof.Claims

namespace Sys2Proof.Proofs

/-! ### The end of every jump -/

theorem jumpedTo_setPc (target : Word) (s : State) : JumpedTo target [] s (s.setPc target) :=
  ⟨rfl, fun _ _ => rfl, rfl, fun _ _ => rfl, ⟨rfl, rfl⟩, ⟨rfl, rfl⟩⟩

theorem jumpedTo_link_setPc (target : Word) (s : State) :
    JumpedTo target [.r7] s ((saveLink s).setPc target) :=
  ⟨rfl, fun _ hq => saveLink_reg_ne s (List.ne_of_not_mem_cons hq), rfl, fun _ _ => rfl,
    ⟨rfl, rfl⟩, ⟨rfl, rfl⟩⟩

/-! ### The base field of a matched word -/

/-- A mask that covers bits 8:6 fixes the base register (R75). -/
theorem regField6_of_match {ir mask pattern : Word} (h : ir &&& mask = pattern)
    (hm : mask.extractLsb' 6 3 = BitVec.allOnes 3) : regField6 ir = regField6 pattern := by
  refine congrArg Reg.ofBits ?_
  rw [← h, BitVec.extractLsb'_and, hm, BitVec.and_allOnes]

/-! ### The obligations of spec/43_jump.md -/

/-- Settles O44: the opcode selects JMP, the RET mask fixes its base to register 7, and the whole
effect is one `setPc`. -/
theorem jmpAndRetLoadPc : Obligations.JmpAndRetLoadPc := by
  refine ⟨fun _ h => decode_jmp (opcodeField_of_match h (by decide)), fun ir h => ?_,
    fun base s => ⟨_, rfl, jumpedTo_setPc (s.reg base) s⟩⟩
  have hbase : regField6 ir = .r7 := regField6_of_match h (by decide)
  rw [decode_jmp (opcodeField_of_match h (by decide)), hbase]

/-- Settles O45: bit 11 set selects JSR, whose target is relative to the pc the link keeps. -/
theorem jsrLinksAndJumps : Obligations.JsrLinksAndJumps := by
  refine ⟨fun ir h => ?_,
    fun off s => ⟨_, rfl, saveLink_reg_r7 s, jumpedTo_link_setPc (pcRelative off s) s⟩⟩
  rw [decode_jsr (opcodeField_of_match h (by decide)), bit_of_match (k := 11) h (by decide)]
  rfl

/-- Settles O46: bit 11 clear selects JSRR, and the base read after the link is the link itself for
register 7 and the old register otherwise (D19). -/
theorem jsrrLinksThenReadsBase : Obligations.JsrrLinksThenReadsBase := by
  refine ⟨fun ir h => ?_, fun base s => ⟨_, rfl, saveLink_reg_r7 s, ?_⟩⟩
  · rw [decode_jsr (opcodeField_of_match h (by decide)), bit_of_match (k := 11) h (by decide)]
    rfl
  · have hbase : (saveLink s).reg base = if base = .r7 then s.pc else s.reg base :=
      (pcAfter_jsrr base s).symm
    rw [← hbase]
    exact jumpedTo_link_setPc ((saveLink s).reg base) s

end Sys2Proof.Proofs
end

section
/-! PROOFS. The statements of spec/44_system.md (R130 to R141). Three facts carry them: the link is the
one register a TRAP without input writes (`regsSameBut_saveLink`), a string walk ends before its count
of words does and its answer does not depend on that count (`stringWalk_walkFuel_ends`,
`stringWalk_walkFuel_eq`), and only an input trap with no byte waiting is held (`exec_held`). -/

open Sys2Proof Sys2Proof.Machine Sys2Proof.Claims

namespace Sys2Proof.Proofs

/-! ### Words of the TRAP rows -/

/-- The mask of a recognised vector's row fixes the opcode and the vector (R75). -/
theorem decode_of_trapMatch {ir pattern : Word} (h : ir &&& 0xF0FF#16 = pattern)
    (hop : opcodeField pattern = 0xF#4) : decode ir = decodeTrap (trapvect8Field pattern) := by
  rw [decode_trap ((opcodeField_of_match h (by decide)).trans hop), vector_of_match h (by decide)]

theorem recognisedVectors_range : ∀ v ∈ recognisedVectors, 0x20 ≤ v.toNat ∧ v.toNat ≤ 0x25 := by
  decide

theorem vectorUnrecognised_of_range {v : BitVec 8} (h : v.toNat < 0x20 ∨ 0x25 < v.toNat) :
    vectorUnrecognised v = true := by
  have hout : v ∉ recognisedVectors := fun hmem => by
    have hrange := recognisedVectors_range v hmem
    omega
  simpa [vectorUnrecognised] using hout

/-! ### RTI -/

theorem popStack_r6 (s : State) : (popStack s).2.reg .r6 = s.reg .r6 + 1#16 := by
  rw [popStack_eq, State.setReg_reg_same]

theorem popStack_outLog (s : State) : (popStack s).2.outLog = s.outLog := by
  rw [popStack_eq, State.setReg_outLog, (memRead_effect _ s).outLog]

theorem returnFromInterrupt_pc (s : State) : (returnFromInterrupt s).pc = (popStack s).1 := by
  rw [returnFromInterrupt_eq, State.setPsr_pc, State.setPc_pc]

theorem returnFromInterrupt_r6 (s : State) :
    (returnFromInterrupt s).reg .r6 = s.reg .r6 + 2#16 := by
  rw [returnFromInterrupt_eq, State.setPsr_reg, State.setPc_reg, popStack_r6, popStack_r6,
    BitVec.add_assoc]
  rfl

theorem returnFromInterrupt_outLog (s : State) : (returnFromInterrupt s).outLog = s.outLog := by
  rw [returnFromInterrupt_eq, State.setPsr_outLog, State.setPc_outLog, popStack_outLog,
    popStack_outLog]

/-- The second pop reads one word above the first and gives the status word (R130). -/
theorem returnFromInterrupt_reads_psr (s : State) :
    ReadsTo (s.reg .r6 + 1#16) (popStack s).2 (returnFromInterrupt s).psr
      (returnFromInterrupt s) := by
  have second := popStack_readsTo (popStack s).2
  rw [popStack_r6] at second
  rw [returnFromInterrupt_eq, State.setPsr_psr]
  exact readsTo_congr (by rw [State.setPsr_mem, State.setPc_mem])
    (by rw [State.setPsr_inQ, State.setPc_inQ]) second

/-- A fatal condition halts the core with its cause and does nothing more (R155). -/
theorem haltedBy_raiseFatal (e : FatalCondition) (s : State) :
    HaltedBy e.cause s (raiseFatal e s) :=
  ⟨rfl, rfl, rfl, rfl, fun _ _ => rfl, fun _ _ => rfl, ⟨rfl, rfl⟩⟩

/-! ### The link -/

theorem regsSameBut_saveLink (s : State) : RegsSameBut [.r7] s (saveLink s) :=
  fun _ hq => saveLink_reg_ne s (List.ne_of_not_mem_cons hq)

/-- An input trap writes register 0 after the link. -/
theorem regsSameBut_link_r0 {s t : State} (h : RegsSameBut [.r0] (saveLink s) t) :
    RegsSameBut [.r0, .r7] s t := fun q hq => by
  simp only [List.mem_cons, List.not_mem_nil, or_false, not_or] at hq
  obtain ⟨h0, h7⟩ := hq
  exact (h q (List.not_mem_cons_of_ne_of_not_mem h0 List.not_mem_nil)).trans (saveLink_reg_ne s h7)

/-! ### String walks end -/

/-- How many words a walk from `a` reads before it comes to the status address. -/
def wordsToStatus (a : Word) : Nat := (statusAddr - a).toNat

theorem wordsToStatus_lt (a : Word) : wordsToStatus a < memWords := (statusAddr - a).isLt

theorem wordsToStatus_add_one_lt {a : Word} (h : a ≠ statusAddr) :
    wordsToStatus (a + 1#16) < wordsToStatus a := by
  simp only [wordsToStatus, statusAddr] at h ⊢
  bv_omega

/-- The words a walk can read: the way to the status address, and one turn of the address space
for each byte waiting there (R141, log entry 6). -/
def walkBound (a : Word) (s : State) : Nat := wordsToStatus a + memWords * s.inQ.length

theorem walkBound_lt_walkFuel (a : Word) (s : State) : walkBound a s < walkFuel s := by
  have hway := wordsToStatus_lt a
  rw [walkBound, walkFuel, Nat.mul_succ]
  omega

/-- `μ` falls with every word after which the walk goes on. -/
def WalkMeasure (stop : Word → Bool) (bytes : Word → List Byte) (μ : Word → State → Nat) : Prop :=
  ∀ a s, stop (memRead a s).1 = true ∨
    μ (a + 1#16) (outBytes (bytes (memRead a s).1) (memRead a s).2) < μ a s

section

variable {stop : Word → Bool} {bytes : Word → List Byte} {μ : Word → State → Nat}

theorem WalkMeasure.ends (hμ : WalkMeasure stop bytes μ) {fuel : Nat} {a : Word} {s : State}
    (h : μ a s < fuel) : ∃ t, stringWalk stop bytes fuel a s = .next t := by
  induction fuel generalizing a s with
  | zero => exact absurd h (Nat.not_lt_zero _)
  | succ fuel ih =>
    rw [stringWalk_succ]
    obtain hstop | hlt := hμ a s
    · exact ⟨_, if_pos hstop⟩
    · split
      · exact ⟨_, rfl⟩
      · exact ih (by omega)

/-- Two counts of words large enough for the walk give the same answer. -/
theorem WalkMeasure.fuel_irrelevant (hμ : WalkMeasure stop bytes μ) {f g : Nat} {a : Word}
    {s : State} (hf : μ a s < f) (hg : μ a s < g) :
    stringWalk stop bytes f a s = stringWalk stop bytes g a s := by
  induction f generalizing g a s with
  | zero => exact absurd hf (Nat.not_lt_zero _)
  | succ f ih =>
    obtain ⟨g, rfl⟩ := Nat.exists_eq_succ_of_ne_zero (Nat.ne_zero_of_lt hg)
    rw [stringWalk_succ, stringWalk_succ]
    obtain hstop | hlt := hμ a s
    · rw [if_pos hstop, if_pos hstop]
    · rw [ih (g := g) (by omega) (by omega)]

/-- A walk that stops at a zero word stops at the latest where a poll finds no byte; each earlier
pass over the status address takes one (R141). -/
theorem walkBound_measure (hzero : stop 0#16 = true) (bytes : Word → List Byte) :
    WalkMeasure stop bytes walkBound := by
  intro a s
  by_cases ha : a = statusAddr
  · subst ha
    cases hq : s.inQ with
    | nil =>
      rw [memRead_status_none hq]
      exact .inl hzero
    | cons b rest =>
      have hway := wordsToStatus_lt (statusAddr + 1#16)
      refine .inr ?_
      rw [memRead_status_some hq]
      simp only [walkBound, outBytes_inQ, memWrite_inQ, hq, List.length_cons, Nat.mul_succ]
      omega
  · rw [memRead_of_ne ha]
    exact .inr (Nat.add_lt_add_right (wordsToStatus_add_one_lt ha) _)

/-- A walk that also stops at what a poll leaves ends on its first way to the status address. -/
theorem wordsToStatus_measure (hidle : stop statusIdle = true) (hready : stop statusReady = true)
    (bytes : Word → List Byte) : WalkMeasure stop bytes fun a _ => wordsToStatus a := by
  intro a s
  by_cases ha : a = statusAddr
  · subst ha
    refine .inl ?_
    cases hq : s.inQ with
    | nil => rwa [memRead_status_none hq]
    | cons b rest => rwa [memRead_status_some hq]
  · exact .inr (wordsToStatus_add_one_lt ha)

theorem stringWalk_walkFuel_ends (hzero : stop 0#16 = true) (bytes : Word → List Byte) (a : Word)
    (s : State) : ∃ t, stringWalk stop bytes (walkFuel s) a s = .next t :=
  (walkBound_measure hzero bytes).ends (walkBound_lt_walkFuel a s)

/-- The loop of R135 and R137, with the count of words started afresh at the next address. -/
theorem stringWalk_walkFuel_eq (hzero : stop 0#16 = true) (bytes : Word → List Byte) (a : Word)
    (s : State) :
    stringWalk stop bytes (walkFuel s) a s =
      if stop (memRead a s).1 then .next (memRead a s).2
      else stringWalk stop bytes
        (walkFuel (outBytes (bytes (memRead a s).1) (memRead a s).2)) (a + 1#16)
        (outBytes (bytes (memRead a s).1) (memRead a s).2) := by
  have hμ := walkBound_measure hzero bytes
  have hfuel := walkBound_lt_walkFuel a s
  obtain ⟨fuel, hsucc⟩ := Nat.exists_eq_succ_of_ne_zero (Nat.ne_zero_of_lt hfuel)
  rw [hsucc] at hfuel ⊢
  rw [stringWalk_succ]
  obtain hstop | hlt := hμ a s
  · rw [if_pos hstop, if_pos hstop]
  · rw [hμ.fuel_irrelevant (by omega) (walkBound_lt_walkFuel _ _)]

end

/-! ### PUTS and PUTSP -/

theorem putsStop_iff (w : Word) : putsStop w = true ↔ w = 0x0000#16 := beq_iff_eq

theorem putspStop_iff (w : Word) : putspStop w = true ↔ w.extractLsb' 0 8 = 0x00#8 := beq_iff_eq

/-- The low byte always, the high byte if it is not zero (R137). -/
theorem putspBytes_eq (w : Word) : putspBytes w =
    w.extractLsb' 0 8 :: if w.extractLsb' 8 8 = 0x00#8 then [] else [w.extractLsb' 8 8] := by
  rw [putspBytes, apply_ite (List.cons (w.extractLsb' 0 8))]
  rfl

theorem putsWalk_eq (a : Word) (s : State) :
    putsWalk a s = if (memRead a s).1 = 0x0000#16 then .next (memRead a s).2
      else putsWalk (a + 1#16) (outBytes [(memRead a s).1.extractLsb' 0 8] (memRead a s).2) := by
  simp only [← putsStop_iff]
  exact stringWalk_walkFuel_eq rfl putsBytes a s

theorem putspWalk_eq (a : Word) (s : State) :
    putspWalk a s = if (memRead a s).1.extractLsb' 0 8 = 0x00#8 then .next (memRead a s).2
      else putspWalk (a + 1#16) (outBytes
        ((memRead a s).1.extractLsb' 0 8 ::
          if (memRead a s).1.extractLsb' 8 8 = 0x00#8 then [] else [(memRead a s).1.extractLsb' 8 8])
        (memRead a s).2) := by
  simp only [← putspStop_iff, ← putspBytes_eq]
  exact stringWalk_walkFuel_eq rfl putspBytes a s

theorem putsWalk_ends (a : Word) (s : State) : ∃ t, putsWalk a s = .next t :=
  stringWalk_walkFuel_ends rfl putsBytes a s

theorem putspWalk_ends (a : Word) (s : State) : ∃ t, putspWalk a s = .next t :=
  stringWalk_walkFuel_ends rfl putspBytes a s

/-- The frame of PUTS and PUTSP: the link, and a walk that touches the two device cells only. -/
theorem walk_frame_of_link {s t : State} (h : WalkEffect (saveLink s) t) :
    t.reg .r7 = s.pc ∧ RegsSameBut [.r7] s t ∧ t.psr = s.psr ∧ t.pc = s.pc ∧
      MemSameBut [statusAddr, dataAddr] s t ∧ RunSame s t := by
  have hreg (q : Reg) : t.reg q = (saveLink s).reg q := congrArg (·.get q) h.regs
  refine ⟨hreg .r7, fun q hq => (hreg q).trans (regsSameBut_saveLink s q hq), h.psr, h.pc,
    fun a ha => ?_, ⟨h.run, h.haltCause⟩⟩
  simp only [List.mem_cons, List.not_mem_nil, or_false, not_or] at ha
  obtain ⟨hs, hd⟩ := ha
  exact h.memory a hs hd

theorem outBytes_outBytes (bs cs : List Byte) (s : State) :
    outBytes cs (outBytes bs s) = outBytes (bs ++ cs) s := by
  simp only [outBytes, List.append_assoc]

theorem add_ofNat_succ (a : Word) (k : Nat) :
    a + BitVec.ofNat 16 (k + 1) = a + 1#16 + BitVec.ofNat 16 k := by
  rw [BitVec.add_assoc, ← BitVec.ofNat_add, Nat.add_comm]

/-- The walk over a terminated string off the status address, word by word. -/
theorem putsWalk_terminated {ws : List Word} {a : Word} {s : State}
    (hwords : ∀ k w, ws[k]? = some w → w ≠ 0#16 ∧ s.peek (a + BitVec.ofNat 16 k) = w)
    (hend : s.peek (a + BitVec.ofNat 16 ws.length) = 0#16)
    (hstatus : ∀ k, k ≤ ws.length → a + BitVec.ofNat 16 k ≠ statusAddr) :
    putsWalk a s = .next (outBytes (ws.map fun w => w.extractLsb' 0 8) s) := by
  induction ws generalizing a s with
  | nil =>
    have ha : a ≠ statusAddr := by simpa using hstatus 0 le_rfl
    have hzero : s.peek a = 0#16 := by simpa using hend
    rw [putsWalk_eq, memRead_of_ne ha, if_pos hzero]
    simp [outBytes]
  | cons w ws ih =>
    have ha : a ≠ statusAddr := by simpa using hstatus 0 (Nat.zero_le _)
    obtain ⟨hw, hread⟩ : w ≠ 0#16 ∧ s.peek a = w := by simpa using hwords 0 w rfl
    rw [putsWalk_eq, memRead_of_ne ha, hread, if_neg hw, ih, outBytes_outBytes]
    · rfl
    · intro k v hv
      rw [← add_ofNat_succ]
      exact hwords (k + 1) v hv
    · rw [← add_ofNat_succ]
      exact hend
    · intro k hk
      rw [← add_ofNat_succ]
      exact hstatus (k + 1) (Nat.succ_le_succ hk)

/-! ### Held steps -/

theorem stringWalk_ne_held (stop : Word → Bool) (bytes : Word → List Byte) (fuel : Nat) (a : Word)
    (s : State) : stringWalk stop bytes fuel a s ≠ .fault .heldForInput := by
  obtain ⟨t, ht, -⟩ | hf := stringWalk_cases stop bytes fuel a s
  · simp [ht]
  · simp [hf]

/-- Only GETC and IN are held, and only while no byte waits (R133, R166). -/
theorem exec_held {i : Instr} {s : State} (h : exec i s = .fault .heldForInput) :
    s.inQ = [] ∧ (i = .trapGetc ∨ i = .trapIn) := by
  cases i with
  | trapGetc =>
    cases hq : s.inQ with
    | nil => exact ⟨rfl, .inl rfl⟩
    | cons c rest => rw [exec_getc_reads hq] at h; cases h
  | trapIn =>
    cases hq : s.inQ with
    | nil => exact ⟨rfl, .inr rfl⟩
    | cons c rest => rw [exec_in_reads hq] at h; cases h
  | rti =>
    cases hu : s.psr.getLsbD 15 with
    | true => rw [exec_rti_user hu] at h; cases h
    | false => rw [exec_rti_supervisor hu] at h; cases h
  | trapPuts => exact absurd h (stringWalk_ne_held _ _ _ _ _)
  | trapPutsp => exact absurd h (stringWalk_ne_held _ _ _ _ _)
  | _ => cases h

/-- What a fetch from the status address gives is neither GETC nor IN (R49). -/
theorem decode_fetch_status_ne {s : State} (hpc : s.pc = statusAddr) :
    ¬(decode (fetch s).1 = .trapGetc ∨ decode (fetch s).1 = .trapIn) := by
  rw [fetch_eq, hpc]
  cases hq : s.inQ with
  | nil =>
    have hword : decode statusIdle = .br false false false 0#9 := decode_statusIdle
    simp [memRead_status_none hq, hword]
  | cons b rest =>
    have hword : decode statusReady = .rti := decode_statusReady
    simp [memRead_status_some hq, hword]

/-- A held step is a GETC or IN off the status address with no byte waiting (R133, R166). -/
theorem step_held {s : State} (h : step s = .fault .heldForInput) :
    s.run = .running ∧ s.pc ≠ statusAddr ∧ s.inQ = [] ∧
      (decode (s.peek s.pc) = .trapGetc ∨ decode (s.peek s.pc) = .trapIn) := by
  cases hrun : s.run with
  | halted => rw [step_halted hrun] at h; cases h
  | running =>
    rw [step_running hrun] at h
    obtain ⟨hq, htrap⟩ := exec_held h
    have hpc : s.pc ≠ statusAddr := fun hpc => decode_fetch_status_ne hpc htrap
    rw [fetch_of_ne hpc] at hq htrap
    exact ⟨rfl, hpc, hq, htrap⟩

/-! ### The obligations of spec/44_system.md -/

/-- Settles O47: in user mode `exec_rti_user` halts at once; in supervisor mode the two pops are the
two reads, each one word further up. -/
theorem rtiPopsOrHalts : Obligations.RtiPopsOrHalts := by
  refine ⟨fun _ h => decode_rti (opcodeField_of_match h (by decide)),
    fun s hu => ⟨_, exec_rti_user hu, haltedBy_raiseFatal .privilegeViolation s⟩, fun s hu => ?_⟩
  have he := returnFromInterrupt_effect s
  refine ⟨returnFromInterrupt s, (popStack s).2, exec_rti_supervisor hu, ?_,
    returnFromInterrupt_reads_psr s, returnFromInterrupt_r6 s, he.regs, ⟨he.run, he.haltCause⟩,
    returnFromInterrupt_outLog s⟩
  rw [returnFromInterrupt_pc]
  exact popStack_readsTo s

/-- Settles O48: after the link, GETC ends in `writeResult`, of which `resultIn_writeResult` says the
whole effect. -/
theorem getcReadsByteAndSetsFlags : Obligations.GetcReadsByteAndSetsFlags := by
  refine ⟨fun _ h => decode_of_trapMatch h rfl, fun s c rest hq => ?_⟩
  obtain ⟨hval, hregs, hflags, hpc, hmem, hrun, hin, hout⟩ :=
    resultIn_writeResult .r0 (zext8 c) { saveLink s with inQ := rest }
  exact ⟨_, exec_getc_reads hq, hin, hval, rfl, regsSameBut_link_r0 hregs, hflags, hpc, hmem, hrun,
    hout⟩

/-- Settles O49: OUT writes the link, which leaves register 0 alone, and then the output. -/
theorem outEmitsLowByte : Obligations.OutEmitsLowByte :=
  ⟨fun _ h => decode_of_trapMatch h rfl, fun s => ⟨_, rfl, rfl, saveLink_reg_r7 s,
    regsSameBut_saveLink s, ⟨rfl, rfl, fun _ _ => rfl⟩, ⟨rfl, rfl⟩, rfl⟩⟩

/-- Settles O50: the loop is `putsWalk_eq`, the frame what any walk after the link keeps. -/
theorem putsFollowsItsLoop : Obligations.PutsFollowsItsLoop := by
  refine ⟨fun _ h => decode_of_trapMatch h rfl, putsWalk_eq, fun s => ?_⟩
  obtain ⟨t, ht⟩ := putsWalk_ends (s.reg .r0) (saveLink s)
  exact ⟨t, ht, ht, walk_frame_of_link (stringWalk_effect ht)⟩

/-- Settles O51: the link changes no cell, so the string still stands for `putsWalk_terminated`. -/
theorem putsEmitsTerminatedString : Obligations.PutsEmitsTerminatedString := by
  intro s ws _ hwords hend hstatus
  have hwalk : exec .trapPuts s =
      .next (outBytes (ws.map fun w => w.extractLsb' 0 8) (saveLink s)) :=
    putsWalk_terminated (s := saveLink s) hwords hend hstatus
  exact ⟨_, hwalk, rfl, saveLink_reg_r7 s, regsSameBut_saveLink s, ⟨rfl, rfl, fun _ _ => rfl⟩,
    ⟨rfl, rfl⟩, rfl⟩

/-- Settles O52: the prompt is empty (D13), and after the byte is taken IN writes the output and
register 0 only. -/
theorem inReadsAndEchoes : Obligations.InReadsAndEchoes := by
  refine ⟨fun _ h => decode_of_trapMatch h rfl, rfl, fun s c rest hq => ?_⟩
  exact ⟨_, exec_in_reads hq, rfl, rfl, State.setReg_reg_same _ _ _, rfl,
    regsSameBut_link_r0 fun _ hr => State.setReg_reg_ne _ _ (List.ne_of_not_mem_cons hr),
    ⟨rfl, rfl, fun _ _ => rfl⟩, ⟨rfl, rfl⟩⟩

/-- Settles O53: both traps ask `inWait` for a byte, and an empty queue has none. -/
theorem inputTrapsHeldWithoutByte : Obligations.InputTrapsHeldWithoutByte := fun _ hq =>
  ⟨exec_getc_held hq, exec_in_held hq⟩

/-- Settles O28: the held step is a GETC or IN off the status address, so with the byte appended the
same word is fetched and the trap finds its byte. -/
theorem appendedInputLiftsHold : Obligations.AppendedInputLiftsHold := by
  intro s b bs h
  obtain ⟨hrun, hpc, hq, htrap⟩ := step_held h
  let u := (hostAppend (b :: bs) s).setPc (s.pc + 1#16)
  have huq : u.inQ = b :: bs := congrArg (· ++ b :: bs) hq
  have hstep : step (hostAppend (b :: bs) s) = exec (decode (s.peek s.pc)) u :=
    stepRunsInstructionAtPc (hostAppend (b :: bs) s) _ hrun hpc rfl
  obtain ⟨-, getcReads⟩ := getcReadsByteAndSetsFlags
  obtain ⟨-, -, inReads⟩ := inReadsAndEchoes
  rw [hstep]
  obtain hgetc | hin := htrap
  · rw [hgetc]
    obtain ⟨t, ht, htq, hr0, hr7, -, -, htpc, -⟩ := getcReads u b bs huq
    exact ⟨t, ht, htq, hr0, htpc, hr7⟩
  · rw [hin]
    obtain ⟨t, ht, htq, -, hr0, hr7, -, ⟨htpc, -, -⟩, -⟩ := inReads u b bs huq
    exact ⟨t, ht, htq, hr0, htpc, hr7⟩

/-- Settles O54: the loop is `putspWalk_eq`, the frame what any walk after the link keeps. -/
theorem putspFollowsItsLoop : Obligations.PutspFollowsItsLoop := by
  refine ⟨fun _ h => decode_of_trapMatch h rfl, putspWalk_eq, fun s => ?_⟩
  obtain ⟨t, ht⟩ := putspWalk_ends (s.reg .r0) (saveLink s)
  exact ⟨t, ht, ht, walk_frame_of_link (stringWalk_effect ht)⟩

/-- Settles O55: both words a poll can leave have a zero low byte, so a PUTSP walk ends on its first
way to the status address; a PUTS walk ends when the input has run dry. -/
theorem stringWalksEnd : Obligations.StringWalksEnd :=
  ⟨fun a _ => (wordsToStatus_measure rfl rfl putspBytes).ends (wordsToStatus_lt a), putsWalk_ends⟩

/-- Settles O56: the link, the message and the halt each write fields of their own. -/
theorem haltTrapEndsRun : Obligations.HaltTrapEndsRun :=
  ⟨fun _ h => decode_of_trapMatch h rfl, fun s => ⟨_, rfl, rfl, rfl, rfl, saveLink_reg_r7 s,
    regsSameBut_saveLink s, ⟨rfl, rfl, fun _ _ => rfl⟩, rfl⟩⟩

/-- Settles O57: the recognised vectors are 0x20 to 0x25, and any other writes only the link. -/
theorem unrecognisedTrapOnlyLinks : Obligations.UnrecognisedTrapOnlyLinks := by
  refine ⟨fun ir h hrange => ?_, fun _ s => ⟨_, rfl, saveLink_reg_r7 s, regsSameBut_saveLink s,
    ⟨rfl, rfl, fun _ _ => rfl⟩, ⟨rfl, rfl⟩, ⟨rfl, rfl⟩⟩⟩
  rw [decode_trap (opcodeField_of_match h (by decide))]
  exact decodeTrap_unrecognised (vectorUnrecognised_of_range hrange)

/-- Settles O58: the opcode selects the reserved instruction, which only takes the fatal condition. -/
theorem reservedOpcodeHalts : Obligations.ReservedOpcodeHalts :=
  ⟨fun _ h => decode_reserved (opcodeField_of_match h (by decide)),
    fun s => ⟨_, rfl, haltedBy_raiseFatal .illegalOpcode s, rfl⟩⟩

end Sys2Proof.Proofs
end

section
/-! PROOFS. The statements of spec/60_exceptions.md (R150, R162, R166). Two facts carry them: a step
that changes the privilege bit is a permitted RTI (`step_changes_mode`), and an instruction that has
no next state is held for input (`exec_next_or_held`). -/

open Sys2Proof Sys2Proof.Machine Sys2Proof.Claims Sys2Proof.Laws

namespace Sys2Proof.Proofs

/-! ### The mode -/

/-- Only an RTI in supervisor mode can change the mode: any other instruction keeps the privilege bit,
and an RTI in user mode halts with the status word as it was (R161, R162). -/
theorem exec_changes_mode {i : Instr} {s t : State} (h : exec i s = .next t)
    (hmode : t.psr.getLsbD 15 ≠ s.psr.getLsbD 15) : i = .rti ∧ s.psr.getLsbD 15 = false := by
  by_cases hrti : i = .rti
  · subst hrti
    cases hu : s.psr.getLsbD 15 with
    | false => exact ⟨rfl, rfl⟩
    | true =>
      rw [exec_rti_user hu] at h
      cases h
      exact absurd (congrArg (·.getLsbD 15) (raiseFatal_psr _ _)) hmode
  · obtain ⟨-, keepsMode, -⟩ := privilegeConsultedOnlyByRti
    exact absurd (keepsMode i s t hrti h) hmode

theorem step_changes_mode {s t : State} (h : step s = .next t)
    (hmode : t.psr.getLsbD 15 ≠ s.psr.getLsbD 15) :
    s.run = .running ∧ decode (fetch s).1 = .rti ∧ s.psr.getLsbD 15 = false := by
  obtain ⟨-, rfl⟩ | ⟨hrun, he⟩ := step_cases h
  · exact absurd rfl hmode
  · have hpsr : (fetch s).2.psr = s.psr := (fetch_frame s).1
    rw [← hpsr] at hmode ⊢
    exact ⟨hrun, exec_changes_mode he hmode⟩

theorem step_keeps_userMode {s t : State} (h : step s = .next t) (hu : s.psr.getLsbD 15 = true) :
    t.psr.getLsbD 15 = true := by
  by_contra hne
  obtain ⟨-, -, hsupervisor⟩ := step_changes_mode h fun e => hne (e.trans hu)
  rw [hu] at hsupervisor
  cases hsupervisor

/-! ### Completion -/

/-- PUTS and PUTSP complete since their walks end; GETC and IN complete once a byte waits (R133, R141). -/
theorem exec_next_or_held (i : Instr) (s : State) :
    (∃ t, exec i s = .next t) ∨ exec i s = .fault .heldForInput := by
  cases i with
  | rti =>
    cases hu : s.psr.getLsbD 15 with
    | true => exact .inl ⟨_, exec_rti_user hu⟩
    | false => exact .inl ⟨_, exec_rti_supervisor hu⟩
  | trapGetc =>
    cases hq : s.inQ with
    | nil => exact .inr (exec_getc_held hq)
    | cons c rest => exact .inl ⟨_, exec_getc_reads hq⟩
  | trapIn =>
    cases hq : s.inQ with
    | nil => exact .inr (exec_in_held hq)
    | cons c rest => exact .inl ⟨_, exec_in_reads hq⟩
  | trapPuts => exact .inl (putsWalk_ends _ (saveLink s))
  | trapPutsp => exact .inl (putspWalk_ends _ (saveLink s))
  | _ => exact .inl ⟨_, rfl⟩

theorem step_next_or_held (s : State) :
    (∃ t, step s = .next t) ∨ step s = .fault .heldForInput := by
  cases hrun : s.run with
  | halted => exact .inl ⟨s, step_halted hrun⟩
  | running =>
    rw [step_running hrun]
    exact exec_next_or_held _ _

/-! ### The word of a TRAP -/

theorem encode_decodeTrap (v : BitVec 8) :
    encode (decodeTrap v) = place 12 0xF#4 ||| place 0 v := by
  unfold decodeTrap
  split_ifs <;> subst_vars <;> rfl

/-- The bits of a TRAP that the decoder examines are the encoder's word (R75, R90). -/
theorem and_trapMask_eq_encode {ir : Word} {i : Instr} (h : decode ir = i)
    (hop : EncodesOpcode.opcodeNumber i = 0xF#4) : ir &&& 0xF0FF#16 = encode i := by
  subst h
  rw [opcodeNumber_decode] at hop
  rw [and_trapMask, decode_trap hop, encode_decodeTrap, hop]

/-! ### The obligations of spec/60_exceptions.md -/

/-- Settles O19: user mode is kept step by step along the run, and the word of the RTI that changes
the mode has opcode 1000. -/
theorem userModeIsForever : Obligations.UserModeIsForever := by
  refine ⟨fun k s t hu h => ?_, fun s t h hmode => ?_⟩
  · exact coreRun_induction (R := fun s t => s.psr.getLsbD 15 = true → t.psr.getLsbD 15 = true)
      (fun _ => id) (fun _ _ _ hstep hrest hs => hrest (step_keeps_userMode hstep hs)) h hu
  · obtain ⟨hrun, hrti, hsupervisor⟩ := step_changes_mode h hmode
    have hop : opcodeField (fetch s).1 = 0x8#4 := by
      rw [← opcodeNumber_decode, hrti]
      rfl
    exact ⟨hrun, hop, hsupervisor⟩

/-- Settles O27: a step without a next state is held, and `step_held` names the two TRAPs, whose
words are the encoder's under the mask of a vector. -/
theorem onlyInputHoldsAStep : Obligations.OnlyInputHoldsAStep := by
  intro s
  refine (step_next_or_held s).imp_right fun hheld => ?_
  obtain ⟨hrun, -, hq, htrap⟩ := step_held hheld
  exact ⟨hheld, hrun, hq, htrap.imp (fun h => and_trapMask_eq_encode h rfl)
    fun h => and_trapMask_eq_encode h rfl⟩

end Sys2Proof.Proofs
end

section
/-! PROOFS. The statements of spec/70_reset_and_hazards.md: a run under a schedule of appends (R176) and
the loader (R177, R178). A scheduled run does to the state with every append made at once what its
completed steps do (`runScheduled_effect`), and a load is `writeWords` of the words its bytes stand
for, or a rejection (`loadObject_words`, `loadObject_leftover`). -/

open Sys2Proof Sys2Proof.Machine Sys2Proof.Claims

namespace Sys2Proof.Proofs

/-! ### Runs under a schedule -/

/-- What any number of completed steps do to a state: the streams stay in order (R33), and the invariant
and user mode are kept (R162). -/
structure RunEffect (s t : State) : Prop where
  streams : StreamsInOrder s t
  inv : s.Inv → t.Inv
  userMode : s.psr.getLsbD 15 = true → t.psr.getLsbD 15 = true

theorem RunEffect.refl (s : State) : RunEffect s s := ⟨.refl s, id, id⟩

theorem RunEffect.trans {s t u : State} (h : RunEffect s t) (k : RunEffect t u) : RunEffect s u :=
  ⟨h.streams.trans k.streams, k.inv ∘ h.inv, k.userMode ∘ h.userMode⟩

theorem step_runEffect {s t : State} (h : step s = .next t) : RunEffect s t :=
  ⟨step_streams h, fun hinv => stepKeepsInv s t hinv h, step_keeps_userMode h⟩

/-- Bytes that wait behind all the others do not disturb the order. -/
theorem StreamsInOrder.hostAppend {s t : State} (h : StreamsInOrder s t) (bs : List Byte) :
    StreamsInOrder (hostAppend bs s) (hostAppend bs t) := by
  obtain ⟨hout, taken, hin⟩ := h
  exact ⟨hout, taken, by rw [hostAppend_inQ, hostAppend_inQ, hin, List.append_assoc]⟩

theorem RunEffect.hostAppend {s t : State} (h : RunEffect s t) (bs : List Byte) :
    RunEffect (hostAppend bs s) (hostAppend bs t) :=
  ⟨h.streams.hostAppend bs, h.inv, h.userMode⟩

/-- A turn ends in the next state of its step, or, if the step is held, in the state with the bytes
appended (R133); no turn ends the run. -/
theorem runScheduled_turn (bs : List Byte) (s : State) :
    ∃ t, RunEffect (hostAppend bs s) t ∧
      ∀ schedule, runScheduled (bs :: schedule) s = runScheduled schedule t := by
  obtain ⟨t, ht⟩ | hheld := step_next_or_held (hostAppend bs s)
  · exact ⟨t, step_runEffect ht, runScheduled_next ht⟩
  · exact ⟨hostAppend bs s, .refl _, runScheduled_held hheld⟩

/-- A scheduled run completes, and its effect is one on the state to which the whole schedule was
appended: the appends of later turns commute with the effect of earlier ones. -/
theorem runScheduled_effect (schedule : List (List Byte)) (s : State) :
    ∃ t, runScheduled schedule s = .next t ∧ RunEffect (hostAppend schedule.flatten s) t := by
  induction schedule generalizing s with
  | nil => exact ⟨s, rfl, by simpa using RunEffect.refl s⟩
  | cons bs schedule ih =>
    obtain ⟨u, hturn, hrun⟩ := runScheduled_turn bs s
    obtain ⟨t, ht, hrest⟩ := ih u
    have hall := (hturn.hostAppend schedule.flatten).trans hrest
    rw [hostAppend_append, ← List.flatten_cons] at hall
    exact ⟨t, (hrun schedule).trans ht, hall⟩

/-- With nothing appended, a held step is tried again in the same state. -/
theorem runScheduled_stays_held {s : State} (h : step s = .fault .heldForInput) (k : Nat) :
    runScheduled (List.replicate k []) s = .next s := by
  induction k with
  | zero => rfl
  | succ k ih =>
    have hturn : step (hostAppend [] s) = .fault .heldForInput := by rwa [hostAppend_nil]
    rw [List.replicate_succ, runScheduled_held hturn, hostAppend_nil, ih]

/-- With nothing appended, the turns of a scheduled run are the steps of the machine. -/
theorem runScheduled_of_coreRun {k : Nat} {s t : State} (h : Host.Core.run core k s = .next t) :
    runScheduled (List.replicate k []) s = .next t := by
  induction k generalizing s with
  | zero => exact h
  | succ k ih =>
    obtain ⟨u, hu, hrest⟩ := coreRun_succ_cases h
    have hturn : step (hostAppend [] s) = .next u := by rwa [hostAppend_nil]
    rw [List.replicate_succ, runScheduled_next hturn, ih hrest]

/-! ### Bytes and words -/

/-- A byte pair is the high byte followed by the low byte (R177). -/
theorem wordOfBytes_eq_append (lo hi : Byte) : wordOfBytes lo hi = hi ++ lo := by
  refine BitVec.eq_of_getLsbD_eq fun k hk => ?_
  simp only [wordOfBytes, BitVec.getLsbD_or, BitVec.getLsbD_shiftLeft, BitVec.getLsbD_setWidth,
    BitVec.getLsbD_append]
  by_cases h8 : k < 8
  · simp [h8, hk]
  · have hlo : lo.getLsbD k = false := BitVec.getLsbD_of_ge lo k (by omega)
    have hhi : k - 8 < 16 := by omega
    simp [h8, hk, hlo, hhi]

theorem wordOfBytes_toNat (lo hi : Byte) :
    (wordOfBytes lo hi).toNat = lo.toNat + 256 * hi.toNat := by
  rw [wordOfBytes_eq_append, BitVec.toNat_append, ← Nat.shiftLeft_add_eq_or_of_lt lo.isLt,
    Nat.shiftLeft_eq]
  omega

theorem wordOfBytes_low_high (w : Word) : wordOfBytes (lowByte w) (highByte w) = w := by
  rw [wordOfBytes_eq_append, lowByte, highByte,
    BitVec.extractLsb'_append_extractLsb'_eq_extractLsb' (by rfl)]
  exact BitVec.extractLsb'_eq_self

/-- Words written out as byte pairs are read back. -/
theorem wordsOfBytes_flatMap (ws : List Word) :
    wordsOfBytes (ws.flatMap fun w => [lowByte w, highByte w]) = some ws := by
  induction ws with
  | nil => rfl
  | cons w ws ih =>
    simp only [List.flatMap_cons, List.cons_append, List.nil_append, wordsOfBytes, ih,
      wordOfBytes_low_high, Option.map_some]

theorem wordsOfBytes_some_length {bytes : List Byte} {ws : List Word}
    (h : wordsOfBytes bytes = some ws) : bytes.length = 2 * ws.length := by
  induction bytes using wordsOfBytes.induct generalizing ws with
  | case1 => cases h; rfl
  | case2 => cases h
  | case3 lo hi rest ih =>
    obtain ⟨vs, hvs, rfl⟩ := Option.map_eq_some_iff.mp h
    have hlen := ih hvs
    simp only [List.length_cons]
    omega

theorem wordsOfBytes_none_length {bytes : List Byte} (h : wordsOfBytes bytes = none) :
    bytes.length % 2 = 1 := by
  induction bytes using wordsOfBytes.induct with
  | case1 => cases h
  | case2 => rfl
  | case3 lo hi rest ih =>
    have hodd := ih (Option.map_eq_none_iff.mp h)
    simp only [List.length_cons]
    omega

/-! ### Words written at rising addresses -/

theorem read_writeWords_outside {a b : Nat} {ws : List Word} (m : Memory)
    (h : b < a ∨ a + ws.length ≤ b) : (writeWords a ws m).read b = m.read b := by
  induction ws generalizing a m with
  | nil => rfl
  | cons w ws ih =>
    simp only [List.length_cons] at h
    rw [writeWords, ih _ (by omega), Memory.read_write_ne m w (by omega)]

theorem read_writeWords_at {a k : Nat} {ws : List Word} {w : Word} (m : Memory)
    (h : ws[k]? = some w) : (writeWords a ws m).read (a + k) = w := by
  induction ws generalizing a k m with
  | nil => cases h
  | cons v ws ih =>
    cases k with
    | zero =>
      obtain rfl : v = w := Option.some.inj h
      have habove : a + 0 < a + 1 := Nat.lt_succ_self a
      rw [writeWords, read_writeWords_outside _ (.inl habove), Nat.add_zero, Memory.read_write_same]
    | succ k =>
      rw [writeWords, Nat.add_comm k, ← Nat.add_assoc]
      exact ih _ h

/-! ### What a load answers -/

/-- Whole words after the origin: the file is accepted if they end inside memory (R178). -/
theorem loadObject_words {lo hi : Byte} {rest : List Byte} {ws : List Word}
    (h : wordsOfBytes rest = some ws) (s : State) :
    loadObject (lo :: hi :: rest) s =
      if (wordOfBytes lo hi).toNat + ws.length ≤ memWords then
        .loaded { s with mem := writeWords (wordOfBytes lo hi).toNat ws s.mem }
      else .rejected .pastEnd := by
  simp only [loadObject, h]

theorem loadObject_leftover {lo hi : Byte} {rest : List Byte} (h : wordsOfBytes rest = none)
    (s : State) : loadObject (lo :: hi :: rest) s = .rejected .oddLength := by
  simp only [loadObject, h]

theorem loadObject_objectBytes {origin : Word} {ws : List Word}
    (h : origin.toNat + ws.length ≤ memWords) (s : State) :
    loadObject (objectBytes origin ws) s =
      .loaded { s with mem := writeWords origin.toNat ws s.mem } := by
  have hbytes : objectBytes origin ws = lowByte origin :: highByte origin ::
      ws.flatMap fun w => [lowByte w, highByte w] := rfl
  rw [hbytes, loadObject_words (wordsOfBytes_flatMap ws), wordOfBytes_low_high, if_pos h]

/-! ### The obligations of spec/70_reset_and_hazards.md -/

/-- Settles O29: `runScheduled_effect`, read with the bytes of the whole schedule waiting from the
start; with nothing appended, by induction on the number of turns. -/
theorem scheduledRunDeliversInput : Obligations.ScheduledRunDeliversInput := by
  refine ⟨fun schedule s => ?_, fun k s h => runScheduled_stays_held h k,
    fun _ _ _ => runScheduled_of_coreRun⟩
  obtain ⟨t, ht, ⟨hout, hin⟩, hinv, hmode⟩ := runScheduled_effect schedule s
  exact ⟨t, ht, hin, hout, hinv, hmode⟩

/-- Settles O59: the bytes stand for the origin and the words, which `writeWords` puts in memory. -/
theorem loaderPlacesWords : Obligations.LoaderPlacesWords := by
  intro origin ws s hfits
  refine ⟨_, loadObject_objectBytes hfits s, fun k w hw => ?_,
    fun a ha => read_writeWords_outside s.mem ha, rfl⟩
  obtain ⟨hk, -⟩ := List.getElem?_eq_some_iff.mp hw
  have haddr : (BitVec.ofNat 16 (origin.toNat + k)).toNat = origin.toNat + k :=
    Nat.mod_eq_of_lt (by omega)
  rw [State.peek, haddr]
  exact read_writeWords_at s.mem hw

/-- Settles O60: a file of 2 bytes or more is an origin and a rest, which is either of odd length or
words that end inside memory or do not. -/
theorem loaderRejectsBadFiles : Obligations.LoaderRejectsBadFiles := by
  refine fun bytes s => ⟨?_, fun e h => by rw [h]; rfl⟩
  match bytes with
  | [] => exact iff_of_true ⟨_, rfl⟩ (by simp)
  | [_] => exact iff_of_true ⟨_, rfl⟩ (by simp)
  | lo :: hi :: rest =>
    cases hws : wordsOfBytes rest with
    | none =>
      have hodd := wordsOfBytes_none_length hws
      refine iff_of_true ⟨_, loadObject_leftover hws s⟩ (.inl ?_)
      simp only [List.length_cons]
      omega
    | some ws =>
      have hlen := wordsOfBytes_some_length hws
      have hmem : memWords = 65536 := rfl
      rw [loadObject_words hws, wordOfBytes_toNat]
      simp only [List.length_cons, List.getD_cons_zero, List.getD_cons_succ]
      by_cases hfits : lo.toNat + 256 * hi.toNat + ws.length ≤ memWords
      · rw [if_pos hfits]
        exact iff_of_false (fun ⟨_, he⟩ => by cases he) (by omega)
      · rw [if_neg hfits]
        exact iff_of_true ⟨_, rfl⟩ (by omega)

end Sys2Proof.Proofs
end
